-- ==== Sys2Proof/Word.lean ====
section
/-! DEFINITION. The word types of the block (00_scope.md, section 4): every value is an unsigned integer of a
stated width, held as a bit vector. -/

namespace Sys2Proof

/-- `u8`: a payload or carry byte. -/
abbrev Byte := BitVec 8

/-- `u32`: a word of the command stream, a value of `pc`, `STATUS`, `FPC`, `FWORD` (rules R8, R19, R20, R22, R23). -/
abbrev Word := BitVec 32

/-- `u64`: the seed operand, `totalLen`, the value of a result record (rules R8, R14, R21). -/
abbrev Word64 := BitVec 64

end Sys2Proof
end

