-- ==== Sys2Proof/Config.lean ====
section
/-! DEFINITION. What is fixed for the block: the per-engine parameters and constants of 00_scope.md rules R5 to R7 and
the interface parameters of rule R8. -/

namespace Sys2Proof

/-- The parameters of one engine that the rules written once for both engines use (rule R5): the round rotation `R1`
and the five constants `PRIME1` to `PRIME5`. The lane width `W` is the type's argument `w`; the block size `BS` is an
argument of the engine record (`Machine.Engine`). -/
structure EngineParams (w : Nat) where
  r1 : Nat
  prime1 : BitVec w
  prime2 : BitVec w
  prime3 : BitVec w
  prime4 : BitVec w
  prime5 : BitVec w
  deriving DecidableEq, Repr

namespace Config

/-- E32: `R1 = 13` and the five 32-bit constants (rules R5, R6).
PRESUMED by the spec itself: the source names the constants and gives no value (log entry 7). -/
def params32 : EngineParams 32 where
  r1 := 13
  prime1 := 0x9E3779B1#32
  prime2 := 0x85EBCA77#32
  prime3 := 0xC2B2AE3D#32
  prime4 := 0x27D4EB2F#32
  prime5 := 0x165667B1#32

/-- E64: `R1 = 31` and the five 64-bit constants (rules R5, R7).
PRESUMED by the spec itself: the source names the constants and gives no value (log entry 7). -/
def params64 : EngineParams 64 where
  r1 := 31
  prime1 := 0x9E3779B185EBCA87#64
  prime2 := 0xC2B2AE3D27D4EB4F#64
  prime3 := 0x165667B19E3779F9#64
  prime4 := 0x85EBCA77C2B2AE63#64
  prime5 := 0x27D4EB2F165667C5#64

/-- `BS` of E32 in bytes: block size and carry capacity (rule R5). -/
abbrev blockBytes32 : Nat := 16

/-- `BS` of E64 in bytes (rule R5). -/
abbrev blockBytes64 : Nat := 32

/-- The width of `E32.carryLen` (rule R13). -/
abbrev carryLenBits32 : Nat := 5

/-- The width of `E64.carryLen` (rule R13). -/
abbrev carryLenBits64 : Nat := 6

/-- `LEN_MAX`: the most payload bytes one command carries (rules R8, R55). -/
def lenMax : Nat := 16777215

/-- The largest `CSLEN` (rule R8). -/
def cslenMax : Nat := 4294967295

end Config
end Sys2Proof
end

