-- ==== Sys2Proof/Syntax.lean ====
section
/-! DEFINITION. The nine commands of the command set XXHC-1 (30_encoding.md rule R58), one constructor per row of the
opcode table, with their operands already assembled: the seed operand is 64 bits for both engines (rule R56), the
payload is a sequence of bytes (rule R57). -/

namespace Sys2Proof

/-- A decoded command. -/
inductive Instr where
  /-- `NOP`, format N (rule R142). -/
  | nop
  /-- `INIT32 seed`, format S (rule R92). -/
  | init32 (seed : Word64)
  /-- `INIT64 seed`, format S (rule R93). -/
  | init64 (seed : Word64)
  /-- `UPDATE32 bytes`, format P (rule R107). -/
  | update32 (data : List Byte)
  /-- `UPDATE64 bytes`, format P (rule R108). -/
  | update64 (data : List Byte)
  /-- `DIGEST32`, format N (rule R135). -/
  | digest32
  /-- `DIGEST64`, format N (rule R136). -/
  | digest64
  /-- `HASH32 seed, bytes`, format SP (rule R140). -/
  | hash32 (seed : Word64) (data : List Byte)
  /-- `HASH64 seed, bytes`, format SP (rule R141). -/
  | hash64 (seed : Word64) (data : List Byte)
  deriving DecidableEq, Repr

/-- The four command formats (rule R50): which operand words follow the header. -/
inductive Format where
  /-- No operand. -/
  | n
  /-- Seed. -/
  | s
  /-- Payload. -/
  | p
  /-- Seed, then payload. -/
  | sp
  deriving DecidableEq, Repr

/-- The payload a command carries; the empty sequence in formats N and S (rule R59). -/
def Instr.payload : Instr → List Byte
  | .nop => []
  | .init32 _ => []
  | .init64 _ => []
  | .update32 data => data
  | .update64 data => data
  | .digest32 => []
  | .digest64 => []
  | .hash32 _ data => data
  | .hash64 _ data => data

/-- The format of a command (rule R58). -/
def Instr.format : Instr → Format
  | .nop => .n
  | .init32 _ => .s
  | .init64 _ => .s
  | .update32 _ => .p
  | .update64 _ => .p
  | .digest32 => .n
  | .digest64 => .n
  | .hash32 _ _ => .sp
  | .hash64 _ _ => .sp

end Sys2Proof
end

