-- ==== Sys2Proof/WellFormed.lean ====
section
/-! DEFINITION. When a command can be encoded. Of the operands only the payload can be out of range: its length has to
fit the 24-bit field `LEN` (30_encoding.md rule R55). The seed is 64 bits by its type. -/

namespace Sys2Proof

/-- The payload fits the `LEN` field: at most `LEN_MAX` bytes (rule R55). -/
def Instr.wf (i : Instr) : Bool := decide (i.payload.length ≤ Config.lenMax)

end Sys2Proof
end

