-- ==== Sys2Proof/Decode.lean ====
section
/-! DEFINITION. Decoding and encoding of commands, written from the tables of 30_encoding.md: header fields (rule R51),
the opcode map (rule R58), `Decode` (rule R59) with its three faults, operand assembly (rules R56, R57), and `Encode`
(rule R65). Decoding reads the command stream only; it is total on any words. -/

namespace Sys2Proof

/-! ### Header fields (rule R51) -/

/-- `OP`, bits 31:28. -/
def headerOp (w : Word) : BitVec 4 := w.extractLsb' 28 4

/-- `ENG`, bit 27. -/
def headerEng (w : Word) : BitVec 1 := w.extractLsb' 27 1

/-- `ZERO`, bits 26:24. -/
def headerZero (w : Word) : BitVec 3 := w.extractLsb' 24 3

/-- `LEN`, bits 23:0, as a number of bytes (rule R55). -/
def headerLen (w : Word) : Nat := (w.extractLsb' 0 24).toNat

/-! ### The opcode map (rule R58) -/

/-- The nine mnemonics. -/
inductive Opcode where
  | nop | init32 | init64 | update32 | update64 | digest32 | digest64 | hash32 | hash64
  deriving DecidableEq, Repr

/-- A row of the opcode map: a header `w` selects it when `w AND mask = pattern`. -/
structure Row where
  opcode : Opcode
  format : Format
  mask : Word
  pattern : Word
  deriving DecidableEq, Repr

/-- The row of each mnemonic (rule R58; the same numbers as opcode_table.json). -/
def rowOf : Opcode → Row
  | .nop => ⟨.nop, .n, 0xFFFFFFFF#32, 0x00000000#32⟩
  | .init32 => ⟨.init32, .s, 0xFFFFFFFF#32, 0x10000000#32⟩
  | .init64 => ⟨.init64, .s, 0xFFFFFFFF#32, 0x18000000#32⟩
  | .update32 => ⟨.update32, .p, 0xFF000000#32, 0x20000000#32⟩
  | .update64 => ⟨.update64, .p, 0xFF000000#32, 0x28000000#32⟩
  | .digest32 => ⟨.digest32, .n, 0xFFFFFFFF#32, 0x30000000#32⟩
  | .digest64 => ⟨.digest64, .n, 0xFFFFFFFF#32, 0x38000000#32⟩
  | .hash32 => ⟨.hash32, .sp, 0xFF000000#32, 0x40000000#32⟩
  | .hash64 => ⟨.hash64, .sp, 0xFF000000#32, 0x48000000#32⟩

/-- The complete map, in the order of rule R58. -/
def opcodeRows : List Row :=
  [rowOf .nop, rowOf .init32, rowOf .init64, rowOf .update32, rowOf .update64, rowOf .digest32, rowOf .digest64,
    rowOf .hash32, rowOf .hash64]

/-- The header `w` selects the row `r`. -/
def Row.selects (r : Row) (w : Word) : Bool := w &&& r.mask == r.pattern

/-- The row a header selects, if any (rules R58, R60). -/
def findRow (w : Word) : Option Row := opcodeRows.find? (fun r => r.selects w)

/-! ### Command lengths (rule R50) -/

/-- The number of seed words of a format. -/
def seedWordCount : Format → Nat
  | .n => 0
  | .s => 2
  | .p => 0
  | .sp => 2

/-- The number of payload words of a format for a length of `len` bytes: `ceil(len / 4)` where there is a payload. -/
def payloadWordCount : Format → Nat → Nat
  | .n, _ => 0
  | .s, _ => 0
  | .p, len => (len + 3) / 4
  | .sp, len => (len + 3) / 4

/-- `cmdlen` of a command, in words. -/
def Instr.cmdlen (i : Instr) : Nat := 1 + seedWordCount i.format + payloadWordCount i.format i.payload.length

/-- The number of words a header asks for; an illegal header is one word. -/
def headerCmdlen (w : Word) : Nat :=
  match findRow w with
  | none => 1
  | some r => 1 + seedWordCount r.format + payloadWordCount r.format (headerLen w)

/-! ### Operand assembly (rules R56, R57) -/

/-- `seed64 = {SEED_HI, SEED_LO}` (rule R56). -/
def seedOfWords (lo hi : Word) : Word64 := hi ++ lo

/-- The four bytes of a payload word, lowest first (rules R35, R57). -/
def unpackWord (w : Word) : List Byte :=
  [w.extractLsb' 0 8, w.extractLsb' 8 8, w.extractLsb' 16 8, w.extractLsb' 24 8]

/-- The first `len` bytes carried by the payload words (rule R57). -/
def payloadBytes (len : Nat) (ws : List Word) : List Byte := (ws.flatMap unpackWord).take len

/-- The padding bits of the last payload word are zero: bits `31 : 8 * (len mod 4)` when `len` is no multiple of 4
(rule R57). -/
def paddingIsZero (len : Nat) (ws : List Word) : Bool :=
  match ws.getLast? with
  | none => true
  | some last => len % 4 == 0 || last >>> (8 * (len % 4)) == 0#32

/-- The seed operand from the words after the header; formats N and P have none and the value is not used (rule R59). -/
def seedOperand : Format → List Word → Word64
  | .s, lo :: hi :: _ => seedOfWords lo hi
  | .sp, lo :: hi :: _ => seedOfWords lo hi
  | _, _ => 0#64

/-- The command of a mnemonic with its assembled operands (rule R59, `Command(...)`). -/
def Opcode.build (o : Opcode) (seed : Word64) (data : List Byte) : Instr :=
  match o with
  | .nop => .nop
  | .init32 => .init32 seed
  | .init64 => .init64 seed
  | .update32 => .update32 data
  | .update64 => .update64 data
  | .digest32 => .digest32
  | .digest64 => .digest64
  | .hash32 => .hash32 seed data
  | .hash64 => .hash64 seed data

/-! ### Decode (rule R59) -/

/-- The three faults of decoding (60_exceptions.md rules R151 to R153). -/
inductive DecodeFault where
  /-- The header matches no row (rule R151). -/
  | illegalCommand
  /-- A word of the command lies at or past `CSLEN` (rule R152). -/
  | truncatedCommand
  /-- A padding bit of the last payload word is 1 (rule R153). -/
  | nonzeroPad
  deriving DecidableEq, Repr

/-- `Decode(CS, CSLEN, pc)`: `w` is `CS[pc]` and `rest` the words from `pc + 1` to the end of the stream. The three
faults are tested in the order of rule R158. `rest.length < cmdlen - 1` is the test `pc + cmdlen > CSLEN`, without
wrap. -/
def decode (w : Word) (rest : List Word) : Except DecodeFault Instr :=
  match findRow w with
  | none => .error .illegalCommand
  | some row =>
    let len := headerLen w
    let nseed := seedWordCount row.format
    let npay := payloadWordCount row.format len
    let payload := (rest.drop nseed).take npay
    if rest.length < nseed + npay then .error .truncatedCommand
    else if paddingIsZero len payload then
      .ok (row.opcode.build (seedOperand row.format rest) (payloadBytes len payload))
    else .error .nonzeroPad

/-! ### Encode (rule R65) -/

/-- The mnemonic of a command. -/
def Instr.opcode : Instr → Opcode
  | .nop => .nop
  | .init32 _ => .init32
  | .init64 _ => .init64
  | .update32 _ => .update32
  | .update64 _ => .update64
  | .digest32 => .digest32
  | .digest64 => .digest64
  | .hash32 _ _ => .hash32
  | .hash64 _ _ => .hash64

/-- The header word: `match OR len(data)` (rule R65; `len(data)` is 0 in formats N and S). -/
def Instr.header (i : Instr) : Word := (rowOf i.opcode).pattern ||| BitVec.ofNat 32 i.payload.length

/-- The seed words: low word first (rules R56, R65). -/
def Instr.seedWords : Instr → List Word
  | .nop => []
  | .init32 seed => [seed.extractLsb' 0 32, seed.extractLsb' 32 32]
  | .init64 seed => [seed.extractLsb' 0 32, seed.extractLsb' 32 32]
  | .update32 _ => []
  | .update64 _ => []
  | .digest32 => []
  | .digest64 => []
  | .hash32 seed _ => [seed.extractLsb' 0 32, seed.extractLsb' 32 32]
  | .hash64 seed _ => [seed.extractLsb' 0 32, seed.extractLsb' 32 32]

/-- Four bytes packed into a word, the first lowest (rules R35, R57). -/
def packWord (b0 b1 b2 b3 : Byte) : Word := b3 ++ b2 ++ b1 ++ b0

/-- Payload bytes packed four to a word with zero padding (rules R57, R65). -/
def packBytes : List Byte → List Word
  | [] => []
  | [b0] => [packWord b0 0#8 0#8 0#8]
  | [b0, b1] => [packWord b0 b1 0#8 0#8]
  | [b0, b1, b2] => [packWord b0 b1 b2 0#8]
  | b0 :: b1 :: b2 :: b3 :: bs => packWord b0 b1 b2 b3 :: packBytes bs

/-- The words after the header. -/
def Instr.operandWords (i : Instr) : List Word := i.seedWords ++ packBytes i.payload

/-- `Encode`: the words of a well-formed command (rule R65). A payload longer than `LEN_MAX` has no encoding. -/
def encode (i : Instr) : List Word := i.header :: i.operandWords

/-! ### Words numbered as the opcode table numbers them -/

/-- The words of an instruction whose bits are `w`, bit 0 the least significant bit of the header and later words
counted on from it; the bits from `nbits` up are zero and as many zero words follow as the header asks for. -/
def tableWords (nbits w : Nat) : List Word :=
  let bits := w % 2 ^ nbits
  (List.range (max (headerCmdlen (BitVec.ofNat 32 bits)) ((nbits + 31) / 32))).map
    (fun j => BitVec.ofNat 32 (bits >>> (32 * j)))

/-- What the decoder reads from the words of `tableWords`. -/
def decodeTableWord (nbits w : Nat) : Option Instr :=
  match tableWords nbits w with
  | [] => none
  | h :: rest => (decode h rest).toOption

end Sys2Proof
end

