-- ==== Sys2Proof/Machine/State.lean ====
section
/-! DEFINITION. Architectural state (10_state.md), as plain data: the two engine records, the machine registers, the
result port, and the command stream of the run. Also the reasons a step does not answer a next state, and the state
after hardware reset. -/

namespace Sys2Proof.Machine

/-- The four lanes `v[1]` to `v[4]` of an engine of lane width `w` (rule R12). -/
structure Lanes (w : Nat) where
  v1 : BitVec w
  v2 : BitVec w
  v3 : BitVec w
  v4 : BitVec w
  deriving DecidableEq, Repr

/-- The HashEngine record (rule R10) with lane width `w`, block size `bs` bytes and a carry-length counter of `cw`
bits. Reduction modulo `2^w` (rule R16) is by the type of `seed` and of the lanes. -/
structure Engine (w bs cw : Nat) where
  /-- Rule R11. -/
  seed : BitVec w
  /-- Rule R12. -/
  lanes : Lanes w
  /-- `carry[0..BS)`, a plain array (rule R13). -/
  carry : Vector Byte bs
  /-- The number of live carry bytes (rules R13, R15). -/
  carryLen : BitVec cw
  /-- Bytes taken in since the last reset (rule R14). -/
  totalLen : Word64
  deriving DecidableEq, Repr

/-- The 32-bit engine (rules R10, R13). -/
abbrev E32 := Engine 32 Config.blockBytes32 Config.carryLenBits32

/-- The 64-bit engine (rules R10, R13). -/
abbrev E64 := Engine 64 Config.blockBytes64 Config.carryLenBits64

/-- A record of the result port: which engine (0 is E32, 1 is E64) and the digest, zero-extended to 64 bits
(rule R21). -/
structure OutRecord where
  eng : BitVec 1
  value : Word64
  deriving DecidableEq, Repr

/-- The state of the block. `cs` is the command stream of the run (rule R20): a parameter that no command writes, held
here because a step takes the state alone; `CSLEN` is its length (DESIGN CHOICE, log entry 1). -/
structure State where
  e32 : E32
  e64 : E64
  /-- Word index of the command being executed (rule R19). -/
  pc : Word
  /-- The command stream `CS[0..CSLEN)` (rules R8, R20). -/
  cs : List Word
  /-- The result port, oldest record first (rule R21). -/
  out : List OutRecord
  /-- `STATUS`, SR0 (rule R22). -/
  status : Word
  /-- `FPC`, SR1 (rule R23). -/
  fpc : Word
  /-- `FWORD`, SR2 (rule R23). -/
  fword : Word
  deriving DecidableEq, Repr

/-- Why there is no next state. The four faults of the command stream (rules R151 to R154) are NOT here: the block takes
them, which is a next state with `MODE = FAULTED`. Each reason here is safe: the model stops, it never goes on with a
value the spec does not give. -/
inductive Fault where
  /-- Raised by `step` in `MODE = DONE`: the run has ended and the block has no step (rules R22, R160, R161). Safe. -/
  | runDone
  /-- Raised by `step` in `MODE = FAULTED`: the block has no step until hardware reset (rule R156). Safe. -/
  | runFaulted
  /-- Raised by `step` in `MODE = 3`, a value no rule produces (rule R22; log entry 4). Safe. -/
  | modeNeverProduced
  /-- Raised by `step` with `pc > CSLEN`, and by fault entry where `CS[pc]` does not exist: no such word of the stream
  (rules R19, R59; log entry 6). Safe. -/
  | outsideStream
  /-- Raised by UPDATE and DIGEST when the selected engine's `carryLen` is not below `BS`: no command leaves such a value
  and a run may not start from one (rules R15, R29; log entry 3). Safe. -/
  | carryLenOutOfRange
  deriving DecidableEq, Repr

/-- Why the model declines. -/
inductive Refusal where
  /-- An instruction that has no meaning yet: raised by `exec` only. Safe. -/
  | notModelled (mnemonic : String)
  /-- The host asked for a launch while `MODE` is not `DONE` (rule R171): raised by `hostEvent`. Safe. -/
  | launchNotDone
  /-- The host supplied more than `2^32 - 1` words (rule R8): raised by `hostEvent`. Safe. -/
  | streamTooLong
  deriving DecidableEq, Repr

/-- The state after hardware reset (rule R28), every value as that rule tabulates it. The spec leaves the carry bytes
unspecified: they are zero here (DESIGN CHOICE, unsafe, log entry 2), and `State.hardwareReset` takes them as arguments.
The command stream is a parameter of the run: it is empty here (log entry 8). -/
def State.reset : State where
  e32 :=
    { seed := 0x00000000#32
      lanes := ⟨0x24234428#32, 0x85EBCA77#32, 0x00000000#32, 0x61C8864F#32⟩
      carry := Vector.replicate 16 0#8
      carryLen := 0#5
      totalLen := 0#64 }
  e64 :=
    { seed := 0x0000000000000000#64
      lanes := ⟨0x60EA27EEADC0B5D6#64, 0xC2B2AE3D27D4EB4F#64, 0x0000000000000000#64, 0x61C8864E7A143579#64⟩
      carry := Vector.replicate 32 0#8
      carryLen := 0#6
      totalLen := 0#64 }
  pc := 0#32
  cs := []
  out := []
  status := 0#32
  fpc := 0#32
  fword := 0#32

end Sys2Proof.Machine
end

