-- ==== Sys2Proof/Machine/Arith.lean ====
section
/-! DEFINITION. The arithmetic primitives at width `W` (40_wide_arithmetic.md rules R70 to R76). `add_W`, `sub_W`, `mul_W`
and `xor` are `+`, `-`, `*` and `^^^` of `BitVec w`, which reduce modulo `2^w` after every operation (the masking law,
rule R77); the others are here. -/

namespace Sys2Proof.Machine

/-- `trunc_N(v)`: the low `n` bits (rule R70). -/
def trunc {m : Nat} (n : Nat) (v : BitVec m) : BitVec n := v.setWidth n

/-- `zext_N(v)`: the same number in `n` bits, `n` not less than the width (rule R70). For a smaller `n`, which no rule
uses, this definition keeps the low `n` bits (DESIGN CHOICE, log entry 15). -/
def zext {m : Nat} (n : Nat) (v : BitVec m) : BitVec n := v.setWidth n

/-- `rotl_W(x, r)`, `0 < r < W`, as rule R74 writes it: a left shift reduced modulo `2^W` plus the bits that come round.
The rule leaves other amounts open and none is used; this definition leaves `x` as it is there (DESIGN CHOICE,
log entry 15). -/
def rotl {w : Nat} (x : BitVec w) (r : Nat) : BitVec w := (x <<< r) + (x >>> (w - r))

/-- `shr_W(x, s)`: logical right shift, `0 < s < W` (rule R75). The rule says that no other amount occurs; there this
definition is still `x div 2^s`: `x` for `s = 0`, zero for `s >= W` (DESIGN CHOICE, log entry 15). -/
def shr {w : Nat} (x : BitVec w) (s : Nat) : BitVec w := x >>> s

end Sys2Proof.Machine
end

