-- ==== Sys2Proof/Machine/Flags.lean ====
section
/-! DEFINITION. The block has no flags (10_state.md rule R25). What stands in their place: the fields of `STATUS`
(rule R22), the fault codes (60_exceptions.md rules R151 to R154), and the conditions the commands compute and use at
once. -/

namespace Sys2Proof.Machine

/-- The three values of `STATUS.MODE` that are produced (rule R22). -/
inductive Mode where
  | run | done | faulted
  deriving DecidableEq, Repr

/-- The four fault causes (rules R151 to R154). -/
inductive Cause where
  | illegalCommand | truncatedCommand | nonzeroPad | lengthOverflow
  deriving DecidableEq, Repr

/-- The `MODE` code (rule R22). -/
def Mode.code : Mode → BitVec 2
  | .run => 0#2
  | .done => 1#2
  | .faulted => 2#2

/-- The `CAUSE` code (rules R22, R151 to R154). -/
def Cause.code : Cause → BitVec 4
  | .illegalCommand => 1#4
  | .truncatedCommand => 2#4
  | .nonzeroPad => 3#4
  | .lengthOverflow => 4#4

/-- `STATUS.MODE`, bits 1:0. -/
def statusMode (st : Word) : BitVec 2 := st.extractLsb' 0 2

/-- `STATUS.CAUSE`, bits 7:4. -/
def statusCause (st : Word) : BitVec 4 := st.extractLsb' 4 4

/-- `STATUS.MODE <- m`, the other bits as they are (rule R22). -/
def setStatusMode (st : Word) (m : BitVec 2) : Word := st.extractLsb' 2 30 ++ m

/-- `STATUS.CAUSE <- c`, the other bits as they are (rule R22). -/
def setStatusCause (st : Word) (c : BitVec 4) : Word := st.extractLsb' 8 24 ++ c ++ st.extractLsb' 0 4

/-- The cause of a fault of decoding (rules R151 to R153). -/
def causeOfDecode : DecodeFault → Cause
  | .illegalCommand => .illegalCommand
  | .truncatedCommand => .truncatedCommand
  | .nonzeroPad => .nonzeroPad

/-- `carryLen + n < BS`: an `Update` of `n` bytes only buffers (rules R25, R103). Natural numbers, no wrap (R78). -/
def onlyBuffers {w bs cw : Nat} (e : Engine w bs cw) (n : Nat) : Bool := decide (e.carryLen.toNat + n < bs)

/-- `totalLen >= BS`: the lanes are combined (rules R25, R133). The whole 64-bit count is compared. -/
def absorbedBlock {w bs cw : Nat} (e : Engine w bs cw) : Bool := decide (bs ≤ e.totalLen.toNat)

/-- `totalLen + LEN >= 2^64` (rules R112, R154). Natural numbers, no wrap (R78). -/
def lengthOverflows {w bs cw : Nat} (e : Engine w bs cw) (n : Nat) : Bool := decide (2 ^ 64 ≤ e.totalLen.toNat + n)

/-- `0 <= carryLen < BS`, which holds before and after every command (rule R15). -/
def carryLenInRange {w bs cw : Nat} (e : Engine w bs cw) : Bool := decide (e.carryLen.toNat < bs)

end Sys2Proof.Machine
end

