-- ==== Sys2Proof/Machine/Operands.lean ====
section
/-! DEFINITION. The operand forms of the block (20_memory.md rules R32, R38; 30_encoding.md rule R56): little-endian reads
of a byte buffer, byte writes to a carry buffer, and the seed operand at an engine's width. The payload operand is
assembled by the decoder (rule R57). -/

namespace Sys2Proof.Machine

/-- The little-endian value of a byte sequence, first byte least significant (rule R32). -/
def littleEndian : List Byte → Nat
  | [] => 0
  | b :: bs => b.toNat + 256 * littleEndian bs

/-- `MemRead(buf, off, n)`, zero-extended to `w` bits (rules R32, R33, R38). No alignment rule (R37). Every read of the
block lies inside its buffer (rule R101 and the walks of R129, R130 under R15) and has `n` in 1, 4, 8; elsewhere this
definition takes a byte outside the buffer as zero and any `n` (DESIGN CHOICE, log entry 15). -/
def memRead (w : Nat) (buf : List Byte) (off n : Nat) : BitVec w :=
  BitVec.ofNat w (littleEndian ((buf.drop off).take n))

/-- Byte writes `MemWrite(carry, off + i, 1, data[i])` for `i` in increasing order (rules R38, R103). Every write of the
block lies inside the buffer (rule R103 under R15); a write outside, which the array has no place for, is dropped (DESIGN
CHOICE, log entry 15). -/
def writeBytes {bs : Nat} (carry : Vector Byte bs) (off : Nat) : List Byte → Vector Byte bs
  | [] => carry
  | b :: rest => writeBytes (carry.setIfInBounds off b) (off + 1) rest

/-- The seed operand of a command as an engine of width `w` takes it: the excess high bits are dropped (rules R56, R91). -/
def seedForEngine (w : Nat) (seed64 : Word64) : BitVec w := trunc w seed64

end Sys2Proof.Machine
end

