-- ==== Sys2Proof/Machine/Ops.lean ====
section
/-! DEFINITION. The named operations on the machine that the commands and the sequencer share: moving past a command
(rule R19), appending a result (rule R21), entering a fault (rule R155), ending a run (rule R161), fetching a header
(rules R20, R59). -/

namespace Sys2Proof.Machine

/-- `pc <- pc + cmdlen`, the only way a command changes `pc` (rules R19, R62). A command that is executed lies inside the
stream, so the sum does not wrap (rule R19; log entry 15). -/
def State.advance (s : State) (i : Instr) : State := { s with pc := s.pc + BitVec.ofNat 32 i.cmdlen }

/-- `OUT <- OUT ++ [(eng, value)]` (rule R21). -/
def State.emit (s : State) (eng : BitVec 1) (value : Word64) : State := { s with out := s.out ++ [⟨eng, value⟩] }

/-- `raise F` with cause `c` (rule R155): `FPC <- pc`, `FWORD <- CS[pc]`, `STATUS.CAUSE <- c`, `STATUS.MODE <- FAULTED`,
and nothing else. Taking the fault is a next state; there is no handler and no return (rules R155, R156). Where `CS` has
no word at `pc` there is no header to record and the model stops (log entry 6). -/
def State.raise (s : State) (c : Cause) : Host.Outcome State Fault Refusal :=
  match s.cs[s.pc.toNat]? with
  | none => .fault .outsideStream
  | some w =>
    .next { s with
      fpc := s.pc
      fword := w
      status := setStatusMode (setStatusCause s.status c.code) Mode.faulted.code }

/-- `STATUS.MODE <- DONE` (rule R161). -/
def State.endRun (s : State) : State := { s with status := setStatusMode s.status Mode.done.code }

/-- What the sequencer finds at `pc`. -/
inductive Fetched where
  /-- `pc = CSLEN`: every command of the stream has completed (rule R161). -/
  | endOfStream
  /-- `pc > CSLEN`, which no run reaches (rule R19). -/
  | outside
  /-- The header `CS[pc]` and the words after it up to the end of the stream (rule R59). -/
  | words (header : Word) (rest : List Word)
  deriving DecidableEq, Repr

/-- Look at the command stream at `pc` (rules R20, R59, R161). -/
def State.fetch (s : State) : Fetched :=
  match s.cs.drop s.pc.toNat with
  | w :: rest => .words w rest
  | [] => if s.pc.toNat = s.cs.length then .endOfStream else .outside

end Sys2Proof.Machine
end

