-- ==== Sys2Proof/Machine/Seeding.lean ====
section
/-! DEFINITION. Seeding and reset of an engine (41_seeding.md): `Reset`, INIT32, INIT64. -/

namespace Sys2Proof.Machine

/-- The lanes `Reset` derives from a seed (rule R90). -/
def seededLanes {w : Nat} (P : EngineParams w) (seed : BitVec w) : Lanes w where
  v1 := seed + P.prime1 + P.prime2
  v2 := seed + P.prime2
  v3 := seed
  v4 := seed - P.prime1

/-- `Reset(E, s)` for a seed already truncated to the engine's width (rules R90, R91): seed, lanes, `totalLen`, `carryLen`
are written; the carry bytes are not. -/
def Engine.reset {w bs cw : Nat} (P : EngineParams w) (e : Engine w bs cw) (seed : BitVec w) : Engine w bs cw where
  seed := seed
  lanes := seededLanes P seed
  carry := e.carry
  carryLen := 0#cw
  totalLen := 0#64

/-- INIT32 (rule R92): a new construction of E32 in place (rule R94). -/
def execInit32 (seed : Word64) (s : State) : Host.Outcome State Fault Refusal :=
  .next (State.advance { s with e32 := s.e32.reset Config.params32 (seedForEngine 32 seed) } (.init32 seed))

/-- INIT64 (rule R93): a new construction of E64 in place (rule R94). -/
def execInit64 (seed : Word64) (s : State) : Host.Outcome State Fault Refusal :=
  .next (State.advance { s with e64 := s.e64.reset Config.params64 (seedForEngine 64 seed) } (.init64 seed))

end Sys2Proof.Machine
end

