-- ==== Sys2Proof/Machine/Ingest.lean ====
section
/-! DEFINITION. Ingest (42_ingest.md): `Round`, `MixBlock`, `Update` phase by phase, UPDATE32, UPDATE64. -/

namespace Sys2Proof.Machine

/-- `Round(acc, k)` (rule R100): multiply and accumulate, rotate by `R1`, multiply. -/
def laneRound {w : Nat} (P : EngineParams w) (acc k : BitVec w) : BitVec w := rotl (acc + k * P.prime2) P.r1 * P.prime1

/-- `MixBlock` on the lanes (rule R101): quarter `i` of the `4 * q` bytes at `off`, read little-endian at lane width,
feeds lane `i`. -/
def mixBlock {w : Nat} (P : EngineParams w) (q : Nat) (buf : List Byte) (off : Nat) (v : Lanes w) : Lanes w where
  v1 := laneRound P v.v1 (memRead w buf off q)
  v2 := laneRound P v.v2 (memRead w buf (off + q) q)
  v3 := laneRound P v.v3 (memRead w buf (off + 2 * q) q)
  v4 := laneRound P v.v4 (memRead w buf (off + 3 * q) q)

/-- `Q`, the bytes of one quarter of a block (rule R5). -/
abbrev quarter (bs : Nat) : Nat := bs / 4

section phases
variable {w bs cw : Nat}

/-- Phase `U_COUNT` (rule R103): `totalLen <- totalLen + n`. -/
def Engine.countBytes (e : Engine w bs cw) (n : Nat) : Engine w bs cw :=
  { e with totalLen := e.totalLen + BitVec.ofNat 64 n }

/-- Phase `U_APPEND` (rule R103): the whole input goes behind the live carry bytes. -/
def Engine.appendCarry (e : Engine w bs cw) (data : List Byte) : Engine w bs cw :=
  { e with
    carry := writeBytes e.carry e.carryLen.toNat data
    carryLen := BitVec.ofNat cw (e.carryLen.toNat + data.length) }

/-- `f`, how many input bytes complete a block that the carry has begun: none when the carry is empty (rule R103). -/
def Engine.fillCount (e : Engine w bs cw) : Nat := if e.carryLen.toNat = 0 then 0 else bs - e.carryLen.toNat

/-- Phase `U_FILL` (rule R103): the first `BS - carryLen` input bytes complete the carry buffer. `carryLen` takes its
transient value `BS` (rules R13, R15; log entry 9). -/
def Engine.fillCarry (e : Engine w bs cw) (data : List Byte) : Engine w bs cw :=
  { e with
    carry := writeBytes e.carry e.carryLen.toNat (data.take (bs - e.carryLen.toNat))
    carryLen := BitVec.ofNat cw bs }

/-- Phase `U_MIXC` (rule R103): the full carry buffer is mixed and emptied. -/
def Engine.mixCarry (P : EngineParams w) (e : Engine w bs cw) : Engine w bs cw :=
  { e with
    lanes := mixBlock P (quarter bs) e.carry.toList 0 e.lanes
    carryLen := 0#cw }

/-- One turn of phase `U_MIXD` (rule R103): a block is mixed straight from the input at cursor `p`. -/
def Engine.mixDirect (P : EngineParams w) (e : Engine w bs cw) (data : List Byte) (p : Nat) : Engine w bs cw :=
  { e with lanes := mixBlock P (quarter bs) data p e.lanes }

/-- `k` turns of the loop of phase `U_MIXD`, from cursor `p` on (rule R103). -/
def Engine.mixDirectLoop (P : EngineParams w) (data : List Byte) : Nat → Nat → Engine w bs cw → Engine w bs cw
  | 0, _, e => e
  | k + 1, p, e => Engine.mixDirectLoop P data k (p + bs) (e.mixDirect P data p)

/-- Phase `U_STASH` (rule R103): the bytes from cursor `p` on, fewer than a block, become the carry. -/
def Engine.stash (e : Engine w bs cw) (data : List Byte) (p : Nat) : Engine w bs cw :=
  { e with
    carry := writeBytes e.carry 0 (data.drop p)
    carryLen := BitVec.ofNat cw (data.length - p) }

/-- The phases before the direct blocks when at least one block completes: `U_FILL` and `U_MIXC`, taken when the carry is
not empty (rules R103, R104). -/
def Engine.flushCarry (P : EngineParams w) (e : Engine w bs cw) (data : List Byte) : Engine w bs cw :=
  if e.carryLen.toNat = 0 then e else (e.fillCarry data).mixCarry P

/-- `Update(E, data)` (rule R103). The loop of `U_MIXD` turns once per whole block left after the fill. -/
def Engine.update (P : EngineParams w) (e : Engine w bs cw) (data : List Byte) : Engine w bs cw :=
  let counted := e.countBytes data.length
  if onlyBuffers e data.length then counted.appendCarry data
  else
    let f := e.fillCount
    let k := (data.length - f) / bs
    (Engine.mixDirectLoop P data k f (counted.flushCarry P data)).stash data (f + k * bs)

end phases

/-- UPDATE32 (rule R107): `LENGTH_OVERFLOW` before any change (rules R112, R154), else `Update` on E32. -/
def execUpdate32 (data : List Byte) (s : State) : Host.Outcome State Fault Refusal :=
  if lengthOverflows s.e32 data.length then s.raise .lengthOverflow
  else if carryLenInRange s.e32 then
    .next (State.advance { s with e32 := s.e32.update Config.params32 data } (.update32 data))
  else .fault .carryLenOutOfRange

/-- UPDATE64 (rule R108): `LENGTH_OVERFLOW` before any change (rules R112, R154), else `Update` on E64. -/
def execUpdate64 (data : List Byte) (s : State) : Host.Outcome State Fault Refusal :=
  if lengthOverflows s.e64 data.length then s.raise .lengthOverflow
  else if carryLenInRange s.e64 then
    .next (State.advance { s with e64 := s.e64.update Config.params64 data } (.update64 data))
  else .fault .carryLenOutOfRange

end Sys2Proof.Machine
end

