-- ==== Sys2Proof/Machine/Finalize.lean ====
section
/-! DEFINITION. Finalize (43_finalize.md): lane combination, merge, tail folds, avalanche, `Digest`, DIGEST32, DIGEST64.
The two engines differ on purpose (rule R183). The tail walks take the bytes and their number, which in `Digest` are the
carry buffer and `carryLen`. -/

namespace Sys2Proof.Machine

/-- `Converge(E)` (rule R120): lane `i` rotated by the `i`-th of 1, 7, 12, 18, summed. -/
def converge {w : Nat} (v : Lanes w) : BitVec w := rotl v.v1 1 + rotl v.v2 7 + rotl v.v3 12 + rotl v.v4 18

/-- `MergeRound(h, v)`, E64 only (rule R121). -/
def mergeRound (h v : BitVec 64) : BitVec 64 :=
  (h ^^^ laneRound Config.params64 0#64 v) * Config.params64.prime1 + Config.params64.prime4

/-- `MergeAll(E64, h)` (rule R121): the lanes folded in the order 1 to 4. -/
def mergeAll (v : Lanes 64) (h : BitVec 64) : BitVec 64 :=
  mergeRound (mergeRound (mergeRound (mergeRound h v.v1) v.v2) v.v3) v.v4

/-- `ShortStart(E)` (rule R122). -/
def shortStart {w : Nat} (P : EngineParams w) (seed : BitVec w) : BitVec w := seed + P.prime5

/-- `AddLength(E, h)` (rule R123): the count modulo `2^W`. -/
def addLength {w : Nat} (totalLen : Word64) (h : BitVec w) : BitVec w := h + trunc w totalLen

/-- `Tail4_32(h, w)` (rule R124). -/
def tail4_32 (h w : BitVec 32) : BitVec 32 := rotl (h + w * Config.params32.prime3) 17 * Config.params32.prime4

/-- `Tail1_32(h, b)` (rule R125). -/
def tail1_32 (h : BitVec 32) (b : Byte) : BitVec 32 :=
  rotl (h + zext 32 b * Config.params32.prime5) 11 * Config.params32.prime1

/-- `Tail8_64(h, w)` (rule R126). -/
def tail8_64 (h w : BitVec 64) : BitVec 64 :=
  rotl (h ^^^ laneRound Config.params64 0#64 w) 27 * Config.params64.prime1 + Config.params64.prime4

/-- `Tail4_64(h, w)` (rule R127): the 32-bit word zero-extended. -/
def tail4_64 (h : BitVec 64) (w : BitVec 32) : BitVec 64 :=
  rotl (h ^^^ zext 64 w * Config.params64.prime1) 23 * Config.params64.prime2 + Config.params64.prime3

/-- `Tail1_64(h, b)` (rule R128). -/
def tail1_64 (h : BitVec 64) (b : Byte) : BitVec 64 :=
  rotl (h ^^^ zext 64 b * Config.params64.prime5) 11 * Config.params64.prime1

/-- `k` steps of a walk from index `p` upward, `stride` bytes a step; `fold h p` takes the bytes at `p` into the running
hash `h` (rules R129, R130). -/
def walk {α : Type} (fold : α → Nat → α) (stride : Nat) : Nat → Nat → α → α
  | 0, _, h => h
  | k + 1, p, h => walk fold stride k (p + stride) (fold h p)

/-- A 4-byte step of the E32 walk (rule R129). -/
def foldWord32 (buf : List Byte) (h : BitVec 32) (p : Nat) : BitVec 32 := tail4_32 h (memRead 32 buf p 4)

/-- A 1-byte step of the E32 walk (rule R129). -/
def foldByte32 (buf : List Byte) (h : BitVec 32) (p : Nat) : BitVec 32 := tail1_32 h (memRead 8 buf p 1)

/-- `TailWalk32` over the first `n` bytes of `buf` (rule R129): whole words upward, then the remaining bytes. -/
def tailWalk32 (buf : List Byte) (n : Nat) (h : BitVec 32) : BitVec 32 :=
  walk (foldByte32 buf) 1 (n % 4) (4 * (n / 4)) (walk (foldWord32 buf) 4 (n / 4) 0 h)

/-- An 8-byte step of the E64 walk (rule R130). -/
def foldWord64 (buf : List Byte) (h : BitVec 64) (p : Nat) : BitVec 64 := tail8_64 h (memRead 64 buf p 8)

/-- The 4-byte step of the E64 walk (rule R130). -/
def foldHalf64 (buf : List Byte) (h : BitVec 64) (p : Nat) : BitVec 64 := tail4_64 h (memRead 32 buf p 4)

/-- A 1-byte step of the E64 walk (rule R130). -/
def foldByte64 (buf : List Byte) (h : BitVec 64) (p : Nat) : BitVec 64 := tail1_64 h (memRead 8 buf p 1)

/-- `TailWalk64` over the first `n` bytes of `buf` (rule R130): 8-byte words, then one 4-byte word if at least 4 bytes
remain, then the remaining bytes. -/
def tailWalk64 (buf : List Byte) (n : Nat) (h : BitVec 64) : BitVec 64 :=
  let p := 8 * (n / 8)
  let h8 := walk (foldWord64 buf) 8 (n / 8) 0 h
  if 4 ≤ n - p then walk (foldByte64 buf) 1 (n - p - 4) (p + 4) (foldHalf64 buf h8 p)
  else walk (foldByte64 buf) 1 (n - p) p h8

/-- `Avalanche32(h)` (rule R131). -/
def avalanche32 (h : BitVec 32) : BitVec 32 :=
  let h := (h ^^^ shr h 15) * Config.params32.prime2
  let h := (h ^^^ shr h 13) * Config.params32.prime3
  h ^^^ shr h 16

/-- `Avalanche64(h)` (rule R132). -/
def avalanche64 (h : BitVec 64) : BitVec 64 :=
  let h := (h ^^^ shr h 33) * Config.params64.prime2
  let h := (h ^^^ shr h 29) * Config.params64.prime3
  h ^^^ shr h 32

/-- Steps 1 and 2 of `Digest(E32)` (rule R133). -/
def startValue32 (e : E32) : BitVec 32 :=
  if absorbedBlock e then converge e.lanes else shortStart Config.params32 e.seed

/-- Steps 1 and 2 of `Digest(E64)` (rule R133). -/
def startValue64 (e : E64) : BitVec 64 :=
  if absorbedBlock e then mergeAll e.lanes (converge e.lanes) else shortStart Config.params64 e.seed

/-- The value `Digest(E32)` returns: steps 1 to 5 (rule R133). -/
def digestValue32 (e : E32) : BitVec 32 :=
  avalanche32 (tailWalk32 e.carry.toList e.carryLen.toNat (addLength e.totalLen (startValue32 e)))

/-- The value `Digest(E64)` returns: steps 1 to 5 (rule R133). -/
def digestValue64 (e : E64) : BitVec 64 :=
  avalanche64 (tailWalk64 e.carry.toList e.carryLen.toNat (addLength e.totalLen (startValue64 e)))

/-- Step 6 of `Digest` (rules R133, R134): `Reset` with the engine's own seed. -/
def Engine.reseed {w bs cw : Nat} (P : EngineParams w) (e : Engine w bs cw) : Engine w bs cw := e.reset P e.seed

/-- The machine after `Digest` of the engine `e`, which takes E32's place: the record appended, the engine reset with its
own seed (rules R21, R133). -/
def State.finishE32 (s : State) (e : E32) : State :=
  State.emit { s with e32 := e.reseed Config.params32 } 0#1 (zext 64 (digestValue32 e))

/-- The machine after `Digest` of the engine `e`, which takes E64's place (rules R21, R133). -/
def State.finishE64 (s : State) (e : E64) : State :=
  State.emit { s with e64 := e.reseed Config.params64 } 1#1 (digestValue64 e)

/-- DIGEST32 (rule R135). -/
def execDigest32 (s : State) : Host.Outcome State Fault Refusal :=
  if carryLenInRange s.e32 then .next (State.advance (s.finishE32 s.e32) .digest32) else .fault .carryLenOutOfRange

/-- DIGEST64 (rule R136). -/
def execDigest64 (s : State) : Host.Outcome State Fault Refusal :=
  if carryLenInRange s.e64 then .next (State.advance (s.finishE64 s.e64) .digest64) else .fault .carryLenOutOfRange

end Sys2Proof.Machine
end

