-- ==== Sys2Proof/Machine/OneShot.lean ====
section
/-! DEFINITION. One-shot hashing and NOP (44_oneshot_and_nop.md): HASH32, HASH64, NOP. -/

namespace Sys2Proof.Machine

/-- HASH32 (rule R140): `Reset`, `Update`, `Digest` on E32 as one command. `LENGTH_OVERFLOW` cannot occur (rule R112). -/
def execHash32 (seed : Word64) (data : List Byte) (s : State) : Host.Outcome State Fault Refusal :=
  let fresh := s.e32.reset Config.params32 (seedForEngine 32 seed)
  .next (State.advance (s.finishE32 (fresh.update Config.params32 data)) (.hash32 seed data))

/-- HASH64 (rule R141): `Reset`, `Update`, `Digest` on E64 as one command. `LENGTH_OVERFLOW` cannot occur (rule R112). -/
def execHash64 (seed : Word64) (data : List Byte) (s : State) : Host.Outcome State Fault Refusal :=
  let fresh := s.e64.reset Config.params64 (seedForEngine 64 seed)
  .next (State.advance (s.finishE64 (fresh.update Config.params64 data)) (.hash64 seed data))

/-- NOP (rule R142): `pc <- pc + 1` and nothing else. -/
def execNop (s : State) : Host.Outcome State Fault Refusal := .next (s.advance .nop)

end Sys2Proof.Machine
end

