-- ==== Sys2Proof/Machine/Dispatch.lean ====
section
/-! DEFINITION. One arm per command: the `execute c by the rule of its row` of 60_exceptions.md rule R160. -/

namespace Sys2Proof.Machine

/-- Execute a decoded command (rule R160). -/
def exec (i : Instr) (s : State) : Host.Outcome State Fault Refusal :=
  match i with
  | .nop => Sys2Proof.Machine.execNop s
  | .init32 seed => Sys2Proof.Machine.execInit32 seed s
  | .init64 seed => Sys2Proof.Machine.execInit64 seed s
  | .update32 data => Sys2Proof.Machine.execUpdate32 data s
  | .update64 data => Sys2Proof.Machine.execUpdate64 data s
  | .digest32 => Sys2Proof.Machine.execDigest32 s
  | .digest64 => Sys2Proof.Machine.execDigest64 s
  | .hash32 seed data => Sys2Proof.Machine.execHash32 seed data s
  | .hash64 seed data => Sys2Proof.Machine.execHash64 seed data s

end Sys2Proof.Machine
end

