-- ==== Sys2Proof/Machine/Sequencer.lean ====
section
/-! DEFINITION. The body of one step of the machine (60_exceptions.md rule R160), and the placing of words in the command
stream that `withFetchWord` uses. -/

namespace Sys2Proof.Machine

/-- One step in `MODE = RUN` (rule R160): end of stream, a fault of decoding, or the decoded command. -/
def runningStep (s : State) : Host.Outcome State Fault Refusal :=
  match s.fetch with
  | .endOfStream => .next s.endRun
  | .outside => .fault .outsideStream
  | .words w rest =>
    match decode w rest with
    | .error f => s.raise (causeOfDecode f)
    | .ok i => exec i s

/-- One step (rule R160): defined only while `MODE = RUN`; in every other mode there is no step (rules R22, R156,
R161). -/
def sequencerStep (s : State) : Host.Outcome State Fault Refusal :=
  if statusMode s.status = Mode.run.code then runningStep s
  else if statusMode s.status = Mode.done.code then .fault .runDone
  else if statusMode s.status = Mode.faulted.code then .fault .runFaulted
  else .fault .modeNeverProduced

/-- The stream `cs` with the words `ws` placed from index `at` on: words before are kept (zero words, NOPs, where the
stream is shorter), words behind are kept. -/
def placeWords (cs : List Word) (index : Nat) (ws : List Word) : List Word :=
  cs.take index ++ List.replicate (index - cs.length) 0#32 ++ ws ++ cs.drop (index + ws.length)

/-- `s` with the words of a table instruction at `pc` and in `MODE = RUN`: the host's load of a program (rules R20, R171;
log entry 8). -/
def placeTableWord (s : State) (nbits w : Nat) : State :=
  { s with
    cs := placeWords s.cs s.pc.toNat (tableWords nbits w)
    status := setStatusMode s.status Mode.run.code }

end Sys2Proof.Machine
end

