-- ==== Sys2Proof/Machine/Assembler.lean ====
section
/-! DEFINITION. The assembler of 30_encoding.md: syntax (rule R63), pseudo-commands and their expansions (rule R64). It
turns text into the words of a command stream; it is no part of the block's step. White space and the placing of
comments are read as log entry 14 says. -/

namespace Sys2Proof.Machine

/-- A line of assembly with its operands read: a command, or a pseudo-command of rule R64. -/
inductive AsmLine where
  /-- One of the nine commands with all its operands (rule R63). -/
  | command (i : Instr)
  /-- `INIT32` without operand (rule R64 (1)). -/
  | init32Default
  /-- `INIT64` without operand (rule R64 (1)). -/
  | init64Default
  /-- `HASH32 bytes` without seed (rule R64 (2)). -/
  | hash32Default (data : List Byte)
  /-- `HASH64 bytes` without seed (rule R64 (2)). -/
  | hash64Default (data : List Byte)
  /-- `UPDATE32.L bytes` (rule R64 (3)). -/
  | update32Long (data : List Byte)
  /-- `UPDATE64.L bytes` (rule R64 (3)). -/
  | update64Long (data : List Byte)
  deriving DecidableEq, Repr

/-- `k` pieces of `size` bytes and then the rest, in order. -/
def piecesThenRest (size : Nat) : Nat → List Byte → List (List Byte)
  | 0, data => [data]
  | k + 1, data => data.take size :: piecesThenRest size k (data.drop size)

/-- The `ceil(n / size)` pieces of `data`, each but the last of `size` bytes (rule R64 (3)); one piece, possibly empty,
where `data` has at most `size` bytes (log entry 14). -/
def splitPayload (size : Nat) (data : List Byte) : List (List Byte) :=
  piecesThenRest size ((data.length - 1) / size) data

/-- The commands a line stands for (rule R64). -/
def expandLine : AsmLine → List Instr
  | .command i => [i]
  | .init32Default => [.init32 0#64]
  | .init64Default => [.init64 0#64]
  | .hash32Default data => [.hash32 0#64 data]
  | .hash64Default data => [.hash64 0#64 data]
  | .update32Long data => (splitPayload Config.lenMax data).map .update32
  | .update64Long data => (splitPayload Config.lenMax data).map .update64

/-- The words of a list of commands, in stream order; none where a payload is longer than `LEN_MAX` (rules R55, R65). -/
def assembleInstrs (is : List Instr) : Option (List Word) :=
  if is.all Instr.wf then some (is.flatMap encode) else none

/-! ### Reading text (rule R63) -/

/-- Text as characters. -/
abbrev Text := List Char

/-- The double quote. -/
def quoteChar : Char := Char.ofNat 34

/-- A space or a tab. -/
def isBlank (c : Char) : Bool := c == ' ' || c == Char.ofNat 9

/-- Drop leading blanks. -/
def skipBlanks (t : Text) : Text := t.dropWhile isBlank

/-- Nothing more on the line than blanks and a comment, which `;` starts (rule R63). -/
def atLineEnd (t : Text) : Bool :=
  match skipBlanks t with
  | [] => true
  | c :: _ => c == ';'

/-- The value of a decimal digit. -/
def decimalDigit (c : Char) : Option Nat :=
  if 48 ≤ c.toNat && c.toNat ≤ 57 then some (c.toNat - 48) else none

/-- The value of a hexadecimal digit, in either case. -/
def hexDigit (c : Char) : Option Nat :=
  if 48 ≤ c.toNat && c.toNat ≤ 57 then some (c.toNat - 48)
  else if 65 ≤ c.toNat && c.toNat ≤ 70 then some (c.toNat - 55)
  else if 97 ≤ c.toNat && c.toNat ≤ 102 then some (c.toNat - 87)
  else none

/-- The digits at the front of a text, continuing the value `acc`, and the text after them. -/
def readDigits (digit : Char → Option Nat) (base : Nat) : Nat → Text → Nat × Text
  | acc, [] => (acc, [])
  | acc, c :: t =>
    match digit c with
    | some d => readDigits digit base (acc * base + d) t
    | none => (acc, c :: t)

/-- At least one digit. -/
def readNumber (digit : Char → Option Nat) (base : Nat) (t : Text) : Option (Nat × Text) :=
  match t with
  | [] => none
  | c :: _ => if (digit c).isSome then some (readDigits digit base 0 t) else none

/-- An unsigned literal in `0 .. 2^64 - 1`, decimal or `0x` hexadecimal (rule R63). -/
def readSeed (t : Text) : Option (Word64 × Text) :=
  let number :=
    match t with
    | '0' :: 'x' :: t' => readNumber hexDigit 16 t'
    | _ => readNumber decimalDigit 10 t
  match number with
  | some (v, rest) => if v < 2 ^ 64 then some (BitVec.ofNat 64 v, rest) else none
  | none => none

/-- The body of a hex string up to the closing quote: two digits a byte (rule R63). -/
def readHexBody : Text → Option (List Byte × Text)
  | [] => none
  | [c] => if c == quoteChar then some ([], []) else none
  | c :: d :: t =>
    if c == quoteChar then some ([], d :: t)
    else
      match hexDigit c, hexDigit d, readHexBody t with
      | some hi, some lo, some (bytes, rest) => some (BitVec.ofNat 8 (16 * hi + lo) :: bytes, rest)
      | _, _, _ => none

/-- The body of a quoted ASCII string up to the closing quote: each character `0x20..0x7E` is one byte (rule R63). -/
def readAsciiBody : Text → Option (List Byte × Text)
  | [] => none
  | c :: t =>
    if c == quoteChar then some ([], t)
    else if 32 ≤ c.toNat && c.toNat ≤ 126 then
      match readAsciiBody t with
      | some (bytes, rest) => some (BitVec.ofNat 8 c.toNat :: bytes, rest)
      | none => none
    else none

/-- A `bytes` operand: a hex string or a quoted ASCII string (rule R63). -/
def readBytes (t : Text) : Option (List Byte × Text) :=
  match t with
  | c :: d :: t' =>
    if c == quoteChar then readAsciiBody (d :: t')
    else if c == 'x' && d == quoteChar then readHexBody t'
    else none
  | _ => none

/-- The operand of a line that takes one `bytes` operand. -/
def bytesOnly (t : Text) (mk : List Byte → AsmLine) : Option AsmLine :=
  match readBytes (skipBlanks t) with
  | some (data, rest) => if atLineEnd rest then some (mk data) else none
  | none => none

/-- The operand of a line that takes an optional seed (rules R63, R64 (1)). -/
def seedOrDefault (t : Text) (dflt : AsmLine) (mk : Word64 → AsmLine) : Option AsmLine :=
  if atLineEnd t then some dflt
  else
    match readSeed (skipBlanks t) with
    | some (seed, rest) => if atLineEnd rest then some (mk seed) else none
    | none => none

/-- The operands of a line that takes an optional seed, a comma and bytes (rules R63, R64 (2)). -/
def seedAndBytes (t : Text) (dflt : List Byte → AsmLine) (mk : Word64 → List Byte → AsmLine) : Option AsmLine :=
  match readSeed (skipBlanks t) with
  | none => bytesOnly t dflt
  | some (seed, rest) =>
    match skipBlanks rest with
    | ',' :: rest' => bytesOnly rest' (mk seed)
    | _ => none

/-- A line without operands. -/
def noOperand (t : Text) (line : AsmLine) : Option AsmLine := if atLineEnd t then some line else none

/-- A character that ends a mnemonic: a blank or the start of a comment or of a bytes operand. -/
def endsMnemonic (c : Char) : Bool := isBlank c || c == ';'

/-- A line that begins with a mnemonic (rules R63, R64). -/
def readCommand (mnemonic operands : Text) : Option AsmLine :=
  if mnemonic = ['N', 'O', 'P'] then noOperand operands (.command .nop)
  else if mnemonic = ['I', 'N', 'I', 'T', '3', '2'] then
    seedOrDefault operands .init32Default (fun s => .command (.init32 s))
  else if mnemonic = ['I', 'N', 'I', 'T', '6', '4'] then
    seedOrDefault operands .init64Default (fun s => .command (.init64 s))
  else if mnemonic = ['U', 'P', 'D', 'A', 'T', 'E', '3', '2'] then bytesOnly operands (fun d => .command (.update32 d))
  else if mnemonic = ['U', 'P', 'D', 'A', 'T', 'E', '6', '4'] then bytesOnly operands (fun d => .command (.update64 d))
  else if mnemonic = ['U', 'P', 'D', 'A', 'T', 'E', '3', '2', '.', 'L'] then bytesOnly operands .update32Long
  else if mnemonic = ['U', 'P', 'D', 'A', 'T', 'E', '6', '4', '.', 'L'] then bytesOnly operands .update64Long
  else if mnemonic = ['D', 'I', 'G', 'E', 'S', 'T', '3', '2'] then noOperand operands (.command .digest32)
  else if mnemonic = ['D', 'I', 'G', 'E', 'S', 'T', '6', '4'] then noOperand operands (.command .digest64)
  else if mnemonic = ['H', 'A', 'S', 'H', '3', '2'] then
    seedAndBytes operands .hash32Default (fun s d => .command (.hash32 s d))
  else if mnemonic = ['H', 'A', 'S', 'H', '6', '4'] then
    seedAndBytes operands .hash64Default (fun s d => .command (.hash64 s d))
  else none

/-- One line of text: nothing for an empty or comment line, else one command; `none` where the line is not assembly
(rule R63: one command per line, `;` starts a comment). -/
def readLine (t : Text) : Option (List AsmLine) :=
  if atLineEnd t then some []
  else
    let body := skipBlanks t
    let mnemonic := body.takeWhile (fun c => !endsMnemonic c)
    (readCommand mnemonic (body.drop mnemonic.length)).map (fun l => [l])

/-- The lines of a text. -/
def splitLines : Text → List Text
  | [] => [[]]
  | c :: t =>
    match splitLines t with
    | [] => [[c]]
    | l :: ls => if c = Char.ofNat 10 then [] :: l :: ls else (c :: l) :: ls

/-- All lines of a text, or `none` where one is not assembly. -/
def readLines : List Text → Option (List AsmLine)
  | [] => some []
  | t :: ts =>
    match readLine t, readLines ts with
    | some l, some ls => some (l ++ ls)
    | _, _ => none

/-- The words of a program text (rules R63 to R65). -/
def assembleText (t : Text) : Option (List Word) :=
  match readLines (splitLines t) with
  | some ls => assembleInstrs (ls.flatMap expandLine)
  | none => none

end Sys2Proof.Machine
end

