-- ==== Sys2Proof/Machine/HostEvents.lean ====
section
/-! DEFINITION. What the host does to the block from outside, between commands (70_reset_and_hazards.md rules R170, R171;
10_state.md rules R21 to R23): hardware reset, launch of a further run, reading the result port and the status
registers. -/

namespace Sys2Proof.Machine

/-- `HardwareReset` (rule R170) with the command stream the host has supplied for the run that follows (rule R171 (a)).
Every piece of state is written; the carry bytes hold unspecified values, which are arguments (rule R26; log entry 2). -/
def State.hardwareReset (s : State) (cs : List Word) (carry32 : Vector Byte 16) (carry64 : Vector Byte 32) : State where
  e32 := Engine.reset Config.params32 { s.e32 with carry := carry32 } 0#32
  e64 := Engine.reset Config.params64 { s.e64 with carry := carry64 } 0#64
  pc := 0#32
  cs := cs
  out := []
  status := 0#32
  fpc := 0#32
  fword := 0#32

/-- `Launch(CS', CSLEN')` (rule R171 (b)): the new stream, `pc <- 0`, `STATUS.MODE <- RUN`; the engines, `OUT`, `FPC`,
`FWORD` keep their values. -/
def State.launch (s : State) (cs : List Word) : State :=
  { s with cs := cs, pc := 0#32, status := setStatusMode s.status Mode.run.code }

/-- What happens to the block: a step of its own, or an action of the host between commands. -/
inductive HostEvent where
  /-- The block takes a step (rule R160). -/
  | step
  /-- Hardware reset, in any state, with the stream of the next run and the carry bytes found afterwards (rule R170). -/
  | hardwareReset (cs : List Word) (carry32 : Vector Byte 16) (carry64 : Vector Byte 32)
  /-- Launch of a further run (rule R171). -/
  | launch (cs : List Word)
  deriving DecidableEq, Repr

/-- The block after an event. A stream is at most `2^32 - 1` words (rule R8); launch requires `MODE = DONE` (rule R171),
so `FAULTED` is left by hardware reset only (rule R156). -/
def hostEvent (ev : HostEvent) (s : State) : Host.Outcome State Fault Refusal :=
  match ev with
  | .step => Sys2Proof.Machine.step s
  | .hardwareReset cs carry32 carry64 =>
    if cs.length ≤ Config.cslenMax then .next (s.hardwareReset cs carry32 carry64) else .refused .streamTooLong
  | .launch cs =>
    if statusMode s.status = Mode.done.code then
      if cs.length ≤ Config.cslenMax then .next (s.launch cs) else .refused .streamTooLong
    else .refused .launchNotDone

/-- The status registers by name (rules R22, R23). -/
inductive StatusReg where
  | sr0 | sr1 | sr2
  deriving DecidableEq, Repr

/-- The host's read of a status register: `STATUS`, `FPC`, `FWORD` (rules R22, R23, R162). It changes nothing. -/
def State.readStatusReg (s : State) : StatusReg → Word
  | .sr0 => s.status
  | .sr1 => s.fpc
  | .sr2 => s.fword

/-- The host's read of the result port (rule R21). It changes nothing. -/
def State.readOut (s : State) : List OutRecord := s.out

end Sys2Proof.Machine
end

