-- ==== Sys2Proof/Machine/UpdatePhases.lean ====
section
/-! DEFINITION. The block-mixer state machine (42_ingest.md rule R104): the sequencer of one `Update`, phase by phase. A
command is atomic and no phase but `U_IDLE` can be observed, so the machine's step uses `Engine.update`; that this
machine computes the same engine through the phases rule R104 lists is a claim (log entry 9). -/

namespace Sys2Proof.Machine

/-- The phases (rule R104). -/
inductive Phase where
  | idle | count | append | fill | mixc | mixd | stash
  deriving DecidableEq, Repr

/-- The sequencer's own state while an `Update` runs: the phase, the engine, the input cursor `p` (rule R26 (b), (c)). -/
structure UpdateSeq (w bs cw : Nat) where
  phase : Phase
  engine : Engine w bs cw
  p : Nat
  deriving DecidableEq, Repr

/-- Where the sequencer goes once the cursor stands at `p`: another whole block or the stash (rules R103, R104). -/
def afterMix (bs n p : Nat) : Phase := if bs ≤ n - p then .mixd else .stash

/-- One phase of `Update(E, data)` (rules R103, R104). -/
def phaseStep {w bs cw : Nat} (P : EngineParams w) (data : List Byte) (m : UpdateSeq w bs cw) : UpdateSeq w bs cw :=
  let n := data.length
  match m.phase with
  | .idle => ⟨.count, m.engine, 0⟩
  | .count =>
    ⟨if onlyBuffers m.engine n then .append
      else if m.engine.carryLen.toNat = 0 then afterMix bs n 0 else .fill,
      m.engine.countBytes n, 0⟩
  | .append => ⟨.idle, m.engine.appendCarry data, n⟩
  | .fill => ⟨.mixc, m.engine.fillCarry data, bs - m.engine.carryLen.toNat⟩
  | .mixc => ⟨afterMix bs n m.p, m.engine.mixCarry P, m.p⟩
  | .mixd => ⟨afterMix bs n (m.p + bs), m.engine.mixDirect P data m.p, m.p + bs⟩
  | .stash => ⟨.idle, m.engine.stash data m.p, n⟩

/-- `k` phases. -/
def phaseRun {w bs cw : Nat} (P : EngineParams w) (data : List Byte) : Nat → UpdateSeq w bs cw → UpdateSeq w bs cw
  | 0, m => m
  | k + 1, m => phaseRun P data k (phaseStep P data m)

/-- The phases visited in `k` phases, the current one first. -/
def phaseTrace {w bs cw : Nat} (P : EngineParams w) (data : List Byte) : Nat → UpdateSeq w bs cw → List Phase
  | 0, _ => []
  | k + 1, m => m.phase :: phaseTrace P data k (phaseStep P data m)

/-- The path of one `Update` of `n` bytes through the phases (rule R104). -/
def updatePath {w bs cw : Nat} (e : Engine w bs cw) (n : Nat) : List Phase :=
  if onlyBuffers e n then [.idle, .count, .append]
  else
    [.idle, .count] ++ (if e.carryLen.toNat = 0 then [] else [.fill, .mixc]) ++
      List.replicate ((n - e.fillCount) / bs) .mixd ++ [.stash]

end Sys2Proof.Machine
end

