-- ==== Sys2Proof/Machine/WideArith.lean ====
section
/-! DEFINITION. The wide-arithmetic helper: 64-bit operations on two 32-bit halves (40_wide_arithmetic.md rules R79 to
R85). The E64 commands are written with the 64-bit primitives, which rule R86 allows; that these functions agree with
them is a claim (rule R86). The intermediate sums are exact natural numbers, narrowed where the rule says `mod`. -/

namespace Sys2Proof.Machine

/-- A `u64` as the pair `(lo, hi)` (rule R79). -/
structure Halves where
  lo : BitVec 32
  hi : BitVec 32
  deriving DecidableEq, Repr

/-- `x.lo = x[31:0]`, `x.hi = x[63:32]` (rule R79). -/
def Halves.ofWord64 (x : Word64) : Halves := ⟨x.extractLsb' 0 32, x.extractLsb' 32 32⟩

/-- `x = x.hi * 2^32 + x.lo` (rule R79). -/
def Halves.toWord64 (a : Halves) : Word64 := BitVec.ofNat 64 (a.hi.toNat * 2 ^ 32 + a.lo.toNat)

/-- `ADD64H` (rule R80). -/
def add64H (a b : Halves) : Halves :=
  let s := a.lo.toNat + b.lo.toNat
  let c := s / 2 ^ 32
  ⟨BitVec.ofNat 32 s, BitVec.ofNat 32 (a.hi.toNat + b.hi.toNat + c)⟩

/-- `SUB64H` (rule R81). -/
def sub64H (a b : Halves) : Halves :=
  let bw := if a.lo < b.lo then 1#32 else 0#32
  ⟨a.lo - b.lo, a.hi - b.hi - bw⟩

/-- `MUL64H` (rule R82): one full 32 by 32 product and the low halves of the two cross products. -/
def mul64H (a b : Halves) : Halves :=
  let p0 := a.lo.toNat * b.lo.toNat
  ⟨BitVec.ofNat 32 p0,
    BitVec.ofNat 32 (p0 / 2 ^ 32 + (a.lo * b.hi).toNat + (a.hi * b.lo).toNat)⟩

/-- The finer split of `p0` that rule R82 allows: four partial products of 16-bit limbs. -/
def mulFull32ByLimbs (a b : BitVec 32) : Nat :=
  let a1 := (a.extractLsb' 16 16).toNat
  let a0 := (a.extractLsb' 0 16).toNat
  let b1 := (b.extractLsb' 16 16).toNat
  let b0 := (b.extractLsb' 0 16).toNat
  a0 * b0 + (a0 * b1 + a1 * b0) * 2 ^ 16 + a1 * b1 * 2 ^ 32

/-- The arm `r < 32` of `ROTL64H` (rule R83). -/
def rotlHalvesSmall (a : Halves) (r : Nat) : Halves :=
  ⟨(a.lo <<< r) + (a.hi >>> (32 - r)), (a.hi <<< r) + (a.lo >>> (32 - r))⟩

/-- `ROTL64H`, `0 < r < 64` (rule R83). For other amounts, which the rule leaves open, it leaves `a` as it is (DESIGN
CHOICE, log entry 15). -/
def rotl64H (a : Halves) (r : Nat) : Halves :=
  if r = 32 then ⟨a.hi, a.lo⟩
  else if r < 32 then rotlHalvesSmall a r
  else rotlHalvesSmall ⟨a.hi, a.lo⟩ (r - 32)

/-- `SHR64H`, `0 < s < 64`, logical (rule R84). For other amounts, which the rule leaves open, it is `a` for `s = 0` and
zero for `s >= 64` (DESIGN CHOICE, log entry 15). -/
def shr64H (a : Halves) (s : Nat) : Halves :=
  if s < 32 then ⟨(a.lo >>> s) + (a.hi <<< (32 - s)), a.hi >>> s⟩
  else if s = 32 then ⟨a.hi, 0#32⟩
  else ⟨a.hi >>> (s - 32), 0#32⟩

/-- `XOR64H` (rule R85). -/
def xor64H (a b : Halves) : Halves := ⟨a.lo ^^^ b.lo, a.hi ^^^ b.hi⟩

end Sys2Proof.Machine
end

