-- ==== Sys2Proof/Safety.lean ====
section
/-! DEFINITION. The terms claims are stated in: what a host can tell of an engine and of a state (10_state.md rule R26), the
invariants of the machine (rules R15, R19, R22, R23), launch states (rule R29), runs (60_exceptions.md rule R160), what
an engine has absorbed (42_ingest.md rule R106), the digest as a function of seed and bytes (43_finalize.md rule R133),
and header fields and lengths as the tables give them, written without the decoder. -/

namespace Sys2Proof.Machine

/-! ### What can be told of an engine and of a state -/

/-- The live part of an engine (rule R26 (a)): everything but the carry bytes at indices from `carryLen` on. -/
structure Live (w : Nat) where
  seed : BitVec w
  lanes : Lanes w
  carry : List Byte
  carryLen : Nat
  totalLen : Word64
  deriving DecidableEq, Repr

/-- `carry[0..carryLen)` (rule R13). -/
def Engine.liveCarry {w bs cw : Nat} (e : Engine w bs cw) : List Byte := e.carry.toList.take e.carryLen.toNat

/-- The live part of an engine (rule R26 (a)). -/
def Engine.live {w bs cw : Nat} (e : Engine w bs cw) : Live w :=
  ⟨e.seed, e.lanes, e.liveCarry, e.carryLen.toNat, e.totalLen⟩

/-- A state without its dead carry bytes. -/
structure LiveState where
  e32 : Live 32
  e64 : Live 64
  pc : Word
  cs : List Word
  out : List OutRecord
  status : Word
  fpc : Word
  fword : Word
  deriving DecidableEq, Repr

/-- The live part of a state (rule R26). -/
def State.live (s : State) : LiveState := ⟨s.e32.live, s.e64.live, s.pc, s.cs, s.out, s.status, s.fpc, s.fword⟩

/-- What an outcome shows once dead carry bytes are left out. -/
def liveOutcome : Host.Outcome State Fault Refusal → Host.Outcome LiveState Fault Refusal
  | .next s => .next s.live
  | .fault f => .fault f
  | .refused r => .refused r

/-! ### Invariants -/

/-- The six values of `STATUS` that rules R22, R155, R161 produce. -/
def legalStatus (st : Word) : Bool :=
  st == 0x00#32 || st == 0x01#32 || st == 0x12#32 || st == 0x22#32 || st == 0x32#32 || st == 0x42#32

/-- The spaces of the block (rule R30) in their one canonical form: the command stream is no longer than rule R8 allows.
The carry buffers have exactly `BS` bytes by their type, and `OUT` is a plain sequence (log entry 11). -/
def Memory.wf (s : State) : Bool := decide (s.cs.length ≤ Config.cslenMax)

/-- The invariants of the machine: rule R15 for both engines, the stream's length (rule R8), `0 <= pc <= CSLEN` (rule
R19), the values of `STATUS` (rule R22), `DONE` only at the end of the stream (rule R22), and in `FAULTED` the record
of the faulting header (rule R23). Rule R16 holds by type. -/
structure State.Inv (s : State) : Prop where
  carry32 : s.e32.carryLen.toNat < 16
  carry64 : s.e64.carryLen.toNat < 32
  memory : Memory.wf s = true
  pcInStream : s.pc.toNat ≤ s.cs.length
  status : legalStatus s.status = true
  doneAtEnd : statusMode s.status = Mode.done.code → s.pc.toNat = s.cs.length
  faultRecorded : statusMode s.status = Mode.faulted.code → s.fpc = s.pc ∧ s.cs[s.pc.toNat]? = some s.fword

/-- A launch state (rule R29): a run may start here. -/
structure State.Launchable (s : State) : Prop where
  carry32 : s.e32.carryLen.toNat < 16
  carry64 : s.e64.carryLen.toNat < 32
  memory : Memory.wf s = true
  running : s.status = 0x00#32
  pcZero : s.pc = 0#32

/-! ### Runs -/

/-- `k` steps, stopping where there is no next state. -/
def runSteps : Nat → State → Host.Outcome State Fault Refusal
  | 0, s => .next s
  | k + 1, s =>
    match step s with
    | .next t => runSteps k t
    | .fault f => .fault f
    | .refused r => .refused r

/-- Commands executed one after another, each on the state the one before left (rule R41). -/
def execAll : List Instr → State → Host.Outcome State Fault Refusal
  | [], s => .next s
  | i :: is, s =>
    match exec i s with
    | .next t => execAll is t
    | .fault f => .fault f
    | .refused r => .refused r

end Sys2Proof.Machine

namespace Sys2Proof

/-- The command selects E32, that is `ENG = 0` (rules R18, R53). -/
def Instr.onE32 : Instr → Bool
  | .nop => false
  | .init32 _ => true
  | .init64 _ => false
  | .update32 _ => true
  | .update64 _ => false
  | .digest32 => true
  | .digest64 => false
  | .hash32 _ _ => true
  | .hash64 _ _ => false

/-- The command selects E64, that is `ENG = 1` (rules R18, R53). -/
def Instr.onE64 : Instr → Bool
  | .nop => false
  | .init32 _ => false
  | .init64 _ => true
  | .update32 _ => false
  | .update64 _ => true
  | .digest32 => false
  | .digest64 => true
  | .hash32 _ _ => false
  | .hash64 _ _ => true

/-- The commands that construct an engine anew and so may change its seed (rule R11). -/
def Instr.constructs : Instr → Bool
  | .nop => false
  | .init32 _ => true
  | .init64 _ => true
  | .update32 _ => false
  | .update64 _ => false
  | .digest32 => false
  | .digest64 => false
  | .hash32 _ _ => true
  | .hash64 _ _ => true

/-- The commands that append a record to `OUT` (rule R21). -/
def Instr.emits : Instr → Bool
  | .nop => false
  | .init32 _ => false
  | .init64 _ => false
  | .update32 _ => false
  | .update64 _ => false
  | .digest32 => true
  | .digest64 => true
  | .hash32 _ _ => true
  | .hash64 _ _ => true

/-- The seed operand of a command, where it has one (rule R56). -/
def Instr.seedOperand : Instr → Option Word64
  | .nop => none
  | .init32 seed => some seed
  | .init64 seed => some seed
  | .update32 _ => none
  | .update64 _ => none
  | .digest32 => none
  | .digest64 => none
  | .hash32 seed _ => some seed
  | .hash64 seed _ => some seed

end Sys2Proof

namespace Sys2Proof.Machine

/-- An outcome with its next state, if any, changed by `f`. -/
def mapNext (f : State → State) : Host.Outcome State Fault Refusal → Host.Outcome State Fault Refusal
  | .next s => .next (f s)
  | .fault r => .fault r
  | .refused r => .refused r

/-! ### Headers, written from the tables without the decoder -/

/-- The header patterns that rule R60 lists as illegal. -/
def illegalHeader (w : Word) : Prop :=
  5 ≤ (headerOp w).toNat ∨ headerZero w ≠ 0#3 ∨ (headerOp w = 0#4 ∧ w ≠ 0#32) ∨
    ((headerOp w = 1#4 ∨ headerOp w = 3#4) ∧ headerLen w ≠ 0)

/-- `cmdlen` of a legal header, by its `OP` (rules R50, R52). -/
def lengthByOp (w : Word) : Nat :=
  if headerOp w = 1#4 then 3
  else if headerOp w = 2#4 then 1 + (headerLen w + 3) / 4
  else if headerOp w = 4#4 then 3 + (headerLen w + 3) / 4
  else 1

/-- The padding bits of the last word of a command with header `w` at the front of `ws` (rule R57): bits
`31 : 8 * (LEN mod 4)`. -/
def paddingBits (w : Word) (ws : List Word) : Nat :=
  (ws.getD (lengthByOp w - 1) 0#32).toNat / 2 ^ (8 * (headerLen w % 4))

/-- `STATUS` after a fault with code `c` (rules R22, R155): `MODE = 2`, `CAUSE = c`, the other bits kept. -/
def faultStatus (st : Word) (c : BitVec 4) : Word := (st &&& 0xFFFFFF0C#32) ||| (c.setWidth 32 <<< 4) ||| 2#32

/-- The state a fault with code `c` at header `w` leaves (rule R155). -/
def faultState (s : State) (c : BitVec 4) (w : Word) : State :=
  { s with fpc := s.pc, fword := w, status := faultStatus s.status c }

/-! ### What an engine has absorbed, and the digest as a function of seed and bytes -/

/-- The lanes after `MixBlock` of the first `m` blocks of `B`, in stream order (rule R106 (d)). -/
def mixBlocks {w : Nat} (P : EngineParams w) (bs : Nat) (B : List Byte) : Nat → Lanes w → Lanes w
  | 0, v => v
  | m + 1, v => mixBlock P (quarter bs) B (m * bs) (mixBlocks P bs B m v)

/-- The engine stands as rule R106 (a) to (e) says after `Update` calls whose payloads concatenate to `B`, since a
`Reset` with `seed`. -/
structure Absorbed {w bs cw : Nat} (P : EngineParams w) (e : Engine w bs cw) (seed : BitVec w) (B : List Byte) : Prop where
  total : e.totalLen.toNat = B.length
  count : e.carryLen.toNat = B.length % bs
  carry : e.liveCarry = B.drop (B.length / bs * bs)
  lanes : e.lanes = mixBlocks P bs B (B.length / bs) (seededLanes P seed)
  seed : e.seed = seed

/-- `Update` calls one after another (rule R106). -/
def feed {w bs cw : Nat} (P : EngineParams w) (e : Engine w bs cw) (chunks : List (List Byte)) : Engine w bs cw :=
  chunks.foldl (fun e data => e.update P data) e

/-- What one `Update` of `data` does to an engine, in the counts and contents rules R103 and R106 give: the stream that
counts is the live carry bytes followed by the input. -/
structure Ingested {w bs cw : Nat} (P : EngineParams w) (e e' : Engine w bs cw) (data : List Byte) : Prop where
  seed : e'.seed = e.seed
  total : e'.totalLen.toNat = e.totalLen.toNat + data.length
  count : e'.carryLen.toNat = (e.carryLen.toNat + data.length) % bs
  carry : e'.liveCarry = (e.liveCarry ++ data).drop ((e.carryLen.toNat + data.length) / bs * bs)
  lanes : e'.lanes = mixBlocks P bs (e.liveCarry ++ data) ((e.carryLen.toNat + data.length) / bs) e.lanes

/-- The carry bytes that one `Update` of `n` bytes does not write (rule R103): in the arm that only buffers, those
outside `[carryLen, carryLen + n)`; else those from the new `carryLen` on that lie below the old one, or all of them
from there on when the carry was empty. -/
def notWrittenByUpdate {w bs cw : Nat} (e : Engine w bs cw) (n j : Nat) : Prop :=
  if e.carryLen.toNat + n < bs then j < e.carryLen.toNat ∨ e.carryLen.toNat + n ≤ j
  else (e.carryLen.toNat + n) % bs ≤ j ∧ (e.carryLen.toNat = 0 ∨ j < e.carryLen.toNat)

/-- The digest of `B` under `seed` on E32, from rules R90 to R133 with no engine in between. -/
def xxh32 (seed : BitVec 32) (B : List Byte) : BitVec 32 :=
  let lanes := mixBlocks Config.params32 16 B (B.length / 16) (seededLanes Config.params32 seed)
  let h := if 16 ≤ B.length then converge lanes else seed + Config.params32.prime5
  avalanche32 (tailWalk32 (B.drop (B.length / 16 * 16)) (B.length % 16) (h + BitVec.ofNat 32 B.length))

/-- The digest of `B` under `seed` on E64, from rules R90 to R133 with no engine in between. -/
def xxh64 (seed : BitVec 64) (B : List Byte) : BitVec 64 :=
  let lanes := mixBlocks Config.params64 32 B (B.length / 32) (seededLanes Config.params64 seed)
  let h := if 32 ≤ B.length then mergeAll lanes (converge lanes) else seed + Config.params64.prime5
  avalanche64 (tailWalk64 (B.drop (B.length / 32 * 32)) (B.length % 32) (h + BitVec.ofNat 64 B.length))

/-- The engine that `Reset(E, s)` leaves, spelled out (rules R28, R90); the carry bytes are an argument. -/
def freshE32 (seed : BitVec 32) (carry : Vector Byte 16) : E32 where
  seed := seed
  lanes := ⟨seed + 0x9E3779B1#32 + 0x85EBCA77#32, seed + 0x85EBCA77#32, seed, seed - 0x9E3779B1#32⟩
  carry := carry
  carryLen := 0#5
  totalLen := 0#64

/-- The engine that `Reset(E, s)` leaves, spelled out (rules R28, R90); the carry bytes are an argument. -/
def freshE64 (seed : BitVec 64) (carry : Vector Byte 32) : E64 where
  seed := seed
  lanes :=
    ⟨seed + 0x9E3779B185EBCA87#64 + 0xC2B2AE3D27D4EB4F#64, seed + 0xC2B2AE3D27D4EB4F#64, seed,
      seed - 0x9E3779B185EBCA87#64⟩
  carry := carry
  carryLen := 0#6
  totalLen := 0#64

/-! ### Arithmetic in natural numbers (rules R70 to R77) -/

/-- `rotl_W` on natural numbers, as rule R74 writes it. -/
def rotlNat (w x r : Nat) : Nat := (x * 2 ^ r) % 2 ^ w + x / 2 ^ (w - r)

/-- `Round` on natural numbers, masked after every operation (rules R77, R100). -/
def roundNat (w r1 prime1 prime2 acc k : Nat) : Nat :=
  rotlNat w ((acc + (k * prime2) % 2 ^ w) % 2 ^ w) r1 * prime1 % 2 ^ w

end Sys2Proof.Machine
end

