-- ==== Sys2Proof/Certificates/Slice0/Obligations.lean ====
section
/-! DEFINITION. The statements for the provers, each a proposition about the machine, none about a program. The rule each
one formalises stands in its docstring. -/

open Sys2Proof Sys2Proof.Machine

/-! ### Encoding and decoding -/

/-- The worked encodings of 30_encoding.md (after rule R65) decode to the commands they stand for. The spec marks this
an inference of its own ("derived: from rules R51 to R57"). -/
def Obligations.SpecWordsDecodeToTheirCommands : Prop :=
  decode 0x00000000#32 [] = .ok .nop ∧
  decode 0x10000000#32 [0x0000ABCD#32, 0x00000000#32] = .ok (.init32 0xABCD#64) ∧
  decode 0x18000000#32 [0x89ABCDEF#32, 0x01234567#32] = .ok (.init64 0x0123456789ABCDEF#64) ∧
  decode 0x20000004#32 [0x64636261#32] = .ok (.update32 [0x61#8, 0x62#8, 0x63#8, 0x64#8]) ∧
  decode 0x20000003#32 [0x00636261#32] = .ok (.update32 [0x61#8, 0x62#8, 0x63#8]) ∧
  decode 0x28000000#32 [] = .ok (.update64 []) ∧
  decode 0x28000005#32 [0x64636261#32, 0x00000065#32] = .ok (.update64 [0x61#8, 0x62#8, 0x63#8, 0x64#8, 0x65#8]) ∧
  decode 0x30000000#32 [] = .ok .digest32 ∧
  decode 0x38000000#32 [] = .ok .digest64 ∧
  decode 0x40000004#32 [0x0000ABCD#32, 0x00000000#32, 0x64636261#32] =
    .ok (.hash32 0xABCD#64 [0x61#8, 0x62#8, 0x63#8, 0x64#8]) ∧
  decode 0x48000003#32 [0x00000000#32, 0x00000000#32, 0x00636261#32] = .ok (.hash64 0#64 [0x61#8, 0x62#8, 0x63#8]) ∧
  decode 0x40000005#32 [0x00000000#32, 0x00000000#32, 0xC3696568#32, 0x000000A5#32] =
    .ok (.hash32 0#64 [0x68#8, 0x65#8, 0x69#8, 0xC3#8, 0xA5#8])

/-- Rule R65, first half: decoding the encoding of any well-formed command gives the command back, whatever words
follow, and the encoding has `cmdlen` words. -/
def Obligations.DecodeOfEncodeGivesTheCommandBack : Prop :=
  ∀ (i : Instr) (rest : List Word), i.wf = true →
    decode i.header (i.operandWords ++ rest) = .ok i ∧ (encode i).length = i.cmdlen

/-- Rule R65, second half: words that decode are the encoding of what they decode to, which is well-formed, so no two
word sequences decode to the same command. The spec marks this an inference of its own (rule R65, "derived: from rule
R57, rule R59 and rule R60"). -/
def Obligations.EncodeOfDecodeGivesTheWordsBack : Prop :=
  ∀ (w : Word) (rest : List Word) (i : Instr), decode w rest = .ok i →
    i.wf = true ∧ encode i ++ rest.drop (i.cmdlen - 1) = w :: rest

/-- Rule R58: the rows of the opcode map are pairwise disjoint. -/
def Obligations.OpcodeRowsAreDisjoint : Prop :=
  ∀ (w : Word) (r₁ r₂ : Row), r₁ ∈ opcodeRows → r₂ ∈ opcodeRows → r₁.selects w = true → r₂.selects w = true → r₁ = r₂

/-- Rule R56: the seed operand is `SEED_HI * 2^32 + SEED_LO`; E64 uses all of it and E32 the low word, whatever
`SEED_HI` is. -/
def Obligations.SeedOperandIsLowWordFirst : Prop :=
  (∀ (w lo hi : Word) (rest : List Word) (i : Instr), decode w (lo :: hi :: rest) = .ok i →
    headerOp w = 1#4 ∨ headerOp w = 4#4 → i.seedOperand.map BitVec.toNat = some (hi.toNat * 2 ^ 32 + lo.toNat)) ∧
  (∀ seed : Word64, (seedForEngine 64 seed).toNat = seed.toNat ∧ (seedForEngine 32 seed).toNat = seed.toNat % 2 ^ 32) ∧
  (∀ (lo hi hi' : Word) (data : List Byte) (s : State),
    exec (.init32 (seedOfWords lo hi)) s = exec (.init32 (seedOfWords lo hi')) s ∧
    exec (.hash32 (seedOfWords lo hi) data) s = exec (.hash32 (seedOfWords lo hi') data) s)

/-- Rule R57: payload byte `j` is bits `8*(j mod 4)+7 : 8*(j mod 4)` of payload word `j div 4`; padding bits of a command
that decodes are zero, and a complete command with a padding bit set is `NONZERO_PAD`. `first` is the index of the first
payload word among the words after the header. -/
def Obligations.PayloadOperandIsPackedLittleEndian : Prop :=
  ∀ (w : Word) (rest : List Word), ¬ illegalHeader w → headerOp w = 2#4 ∨ headerOp w = 4#4 →
    let first := if headerOp w = 2#4 then 0 else 2
    (∀ i, decode w rest = .ok i →
      i.payload.length = headerLen w ∧
      (∀ j, j < headerLen w → i.payload[j]? = (rest[first + j / 4]?).map (fun v => v.extractLsb' (8 * (j % 4)) 8)) ∧
      (headerLen w % 4 ≠ 0 → ∀ v, rest[first + headerLen w / 4]? = some v → v.toNat / 2 ^ (8 * (headerLen w % 4)) = 0)) ∧
    (∀ v, headerLen w % 4 ≠ 0 → rest[first + headerLen w / 4]? = some v → v.toNat / 2 ^ (8 * (headerLen w % 4)) ≠ 0 →
      decode w rest = .error .nonzeroPad)

/-! ### The step, the end of a run, and faults -/

/-- Rules R59, R160: in `MODE = RUN`, where the words at `pc` begin with the encoding of a well-formed command, a step is
that command executed; there is nothing else around it, and the command itself moves `pc` past its words. -/
def Obligations.StepRunsTheDecodedCommand : Prop :=
  (∀ (s : State) (w : Word) (rest : List Word) (i : Instr), statusMode s.status = 0#2 →
    s.cs.drop s.pc.toNat = w :: rest → decode w rest = .ok i → step s = exec i s) ∧
  (∀ (s : State) (rest : List Word) (i : Instr), statusMode s.status = 0#2 → i.wf = true →
    s.cs.drop s.pc.toNat = encode i ++ rest → step s = exec i s)

/-- Rule R151: a header that matches no row (reserved `OP`, non-zero `ZERO`, NOP with another bit set, INIT or DIGEST with
`LEN != 0`) raises `ILLEGAL_COMMAND`, cause 1, recording `FPC = pc` and `FWORD = CS[pc]`; no other header does. -/
def Obligations.IllegalCommandIsRaised : Prop :=
  ∀ (s : State) (w : Word) (rest : List Word), statusMode s.status = 0#2 → s.cs.drop s.pc.toNat = w :: rest →
    (illegalHeader w → step s = .next (faultState s 1#4 w)) ∧
    (¬ illegalHeader w → decode w rest ≠ .error .illegalCommand)

/-- Rule R152: a legal header whose command would pass `CSLEN` raises `TRUNCATED_COMMAND`, cause 2, recording
`FPC = pc` and `FWORD = CS[pc]`; never a command of one word. -/
def Obligations.TruncatedCommandIsRaised : Prop :=
  ∀ (s : State) (w : Word) (rest : List Word), statusMode s.status = 0#2 → s.cs.drop s.pc.toNat = w :: rest →
    ¬ illegalHeader w →
    (s.cs.length < s.pc.toNat + lengthByOp w → step s = .next (faultState s 2#4 w)) ∧
    (s.pc.toNat + lengthByOp w ≤ s.cs.length → decode w rest ≠ .error .truncatedCommand) ∧
    (headerOp w = 0#4 ∨ headerOp w = 3#4 ∨ (headerOp w = 2#4 ∧ headerLen w = 0) →
      decode w rest ≠ .error .truncatedCommand)

/-- Rule R153: a complete UPDATE or HASH with `LEN mod 4 != 0` and a padding bit of its last payload word set raises
`NONZERO_PAD`, cause 3, recording `FPC = pc` and the header in `FWORD`; no other command does. -/
def Obligations.NonzeroPadIsRaised : Prop :=
  ∀ (s : State) (w : Word) (rest : List Word), statusMode s.status = 0#2 → s.cs.drop s.pc.toNat = w :: rest →
    ¬ illegalHeader w → s.pc.toNat + lengthByOp w ≤ s.cs.length →
    ((headerOp w = 2#4 ∨ headerOp w = 4#4) ∧ headerLen w % 4 ≠ 0 ∧ paddingBits w (w :: rest) ≠ 0 →
      step s = .next (faultState s 3#4 w)) ∧
    (¬ ((headerOp w = 2#4 ∨ headerOp w = 4#4) ∧ headerLen w % 4 ≠ 0 ∧ paddingBits w (w :: rest) ≠ 0) →
      decode w rest ≠ .error .nonzeroPad)

/-- Rules R112, R154: an UPDATE whose length would take `totalLen` to `2^64` or beyond raises `LENGTH_OVERFLOW`, cause 4,
with the engines unchanged; no other command, and no other UPDATE, touches `STATUS`. -/
def Obligations.LengthOverflowIsRaised : Prop :=
  (∀ (s : State) (w : Word) (data : List Byte), s.cs[s.pc.toNat]? = some w →
    (2 ^ 64 ≤ s.e32.totalLen.toNat + data.length → exec (.update32 data) s = .next (faultState s 4#4 w)) ∧
    (2 ^ 64 ≤ s.e64.totalLen.toNat + data.length → exec (.update64 data) s = .next (faultState s 4#4 w))) ∧
  (∀ (i : Instr) (s t : State), exec i s = .next t →
    t.status = s.status ∨
    (∃ data, i = .update32 data ∧ 2 ^ 64 ≤ s.e32.totalLen.toNat + data.length) ∨
    (∃ data, i = .update64 data ∧ 2 ^ 64 ≤ s.e64.totalLen.toNat + data.length))

/-- Rule R161: a step that finds `pc = CSLEN` sets `STATUS.MODE` to `DONE` and changes nothing else; in `DONE` there is no
step. -/
def Obligations.EndOfStreamEndsTheRun : Prop :=
  ∀ s : State, statusMode s.status = 0#2 → s.pc.toNat = s.cs.length →
    step s = .next { s with status := (s.status &&& 0xFFFFFFFC#32) ||| 1#32 } ∧
    step { s with status := (s.status &&& 0xFFFFFFFC#32) ||| 1#32 } = .fault .runDone

/-- Rule R156: a faulted block has no step and cannot be launched; of all that can happen to it only a hardware reset
gives a next state. -/
def Obligations.OnlyHardwareResetLeavesFaulted : Prop :=
  ∀ s : State, statusMode s.status = 2#2 →
    step s = .fault .runFaulted ∧
    (∀ cs, hostEvent (.launch cs) s = .refused .launchNotDone) ∧
    (∀ ev t, hostEvent ev s = .next t → ∃ cs a b, ev = .hardwareReset cs a b)

/-- Rule R159: at a fault the command at `FPC` has had no effect: the engines, `OUT`, `pc` and the stream are as
before the step, `FPC` is the index of its header and `FWORD` that header. The spec marks this an inference of its own
(rule R159, "derived: from rules R107, R108, R140, R141"). -/
def Obligations.FaultsArePrecise : Prop :=
  ∀ s t : State, step s = .next t → statusMode t.status = 2#2 →
    t.e32 = s.e32 ∧ t.e64 = s.e64 ∧ t.out = s.out ∧ t.pc = s.pc ∧ t.cs = s.cs ∧ t.fpc = s.pc ∧
    s.cs[s.pc.toNat]? = some t.fword

/-! ### What each command does -/

/-- Rule R142: the all-zero word is NOP; NOP moves `pc` on by one word and does nothing else. -/
def Obligations.NopOnlyAdvances : Prop :=
  (∀ rest : List Word, decode 0x00000000#32 rest = .ok .nop) ∧ encode .nop = [0x00000000#32] ∧
  (∀ s : State, exec .nop s = .next { s with pc := s.pc + 1#32 })

/-- Rules R90, R91, R92: INIT32 leaves E32 freshly reset with the low word of the seed, its carry bytes kept, moves `pc` on
by three words and changes nothing else. -/
def Obligations.Init32ConstructsE32 : Prop :=
  ∀ (seed : Word64) (s : State), exec (.init32 seed) s =
    .next { s with e32 := freshE32 (seed.extractLsb' 0 32) s.e32.carry, pc := s.pc + 3#32 }

/-- Rules R90, R93: INIT64 leaves E64 freshly reset with the seed, its carry bytes kept, moves `pc` on by three words and
changes nothing else. -/
def Obligations.Init64ConstructsE64 : Prop :=
  ∀ (seed : Word64) (s : State), exec (.init64 seed) s =
    .next { s with e64 := freshE64 seed s.e64.carry, pc := s.pc + 3#32 }

/-- Rules R103, R107: under rule R15 and without overflow of the count UPDATE32 completes; E32 has taken the bytes in, `pc`
moves on by `1 + ceil(LEN/4)` words, and nothing else changes. -/
def Obligations.Update32AbsorbsItsBytes : Prop :=
  ∀ (data : List Byte) (s : State), s.e32.carryLen.toNat < 16 → s.e32.totalLen.toNat + data.length < 2 ^ 64 →
    ∃ e : E32, exec (.update32 data) s =
        .next { s with e32 := e, pc := s.pc + BitVec.ofNat 32 (1 + (data.length + 3) / 4) } ∧
      Ingested Config.params32 s.e32 e data

/-- Rules R103, R108: under rule R15 and without overflow of the count UPDATE64 completes; E64 has taken the bytes in, `pc`
moves on by `1 + ceil(LEN/4)` words, and nothing else changes. -/
def Obligations.Update64AbsorbsItsBytes : Prop :=
  ∀ (data : List Byte) (s : State), s.e64.carryLen.toNat < 32 → s.e64.totalLen.toNat + data.length < 2 ^ 64 →
    ∃ e : E64, exec (.update64 data) s =
        .next { s with e64 := e, pc := s.pc + BitVec.ofNat 32 (1 + (data.length + 3) / 4) } ∧
      Ingested Config.params64 s.e64 e data

/-- Rule R103, the carry bytes one by one: an UPDATE leaves every carry byte as it was that the arm it takes does not
write. -/
def Obligations.UpdateKeepsUnwrittenCarryBytes : Prop :=
  (∀ (data : List Byte) (s t : State) (j : Nat), s.e32.carryLen.toNat < 16 →
    s.e32.totalLen.toNat + data.length < 2 ^ 64 → exec (.update32 data) s = .next t →
    notWrittenByUpdate s.e32 data.length j → t.e32.carry.toList[j]? = s.e32.carry.toList[j]?) ∧
  (∀ (data : List Byte) (s t : State) (j : Nat), s.e64.carryLen.toNat < 32 →
    s.e64.totalLen.toNat + data.length < 2 ^ 64 → exec (.update64 data) s = .next t →
    notWrittenByUpdate s.e64 data.length j → t.e64.carry.toList[j]? = s.e64.carry.toList[j]?)

/-- Rules R133, R134, R135: under rule R15 DIGEST32 completes; it appends the record of E32 with the zero-extended digest,
leaves E32 reset with its own seed, moves `pc` on by one word, and changes nothing else. -/
def Obligations.Digest32EmitsAndReseeds : Prop :=
  ∀ s : State, s.e32.carryLen.toNat < 16 →
    let start := if 16 ≤ s.e32.totalLen.toNat then converge s.e32.lanes else s.e32.seed + 0x165667B1#32
    let h := tailWalk32 s.e32.carry.toList s.e32.carryLen.toNat (start + BitVec.ofNat 32 s.e32.totalLen.toNat)
    exec .digest32 s = .next { s with
      e32 := freshE32 s.e32.seed s.e32.carry
      out := s.out ++ [⟨0#1, BitVec.ofNat 64 (avalanche32 h).toNat⟩]
      pc := s.pc + 1#32 }

/-- Rules R133, R134, R136: under rule R15 DIGEST64 completes; it appends the record of E64 with the digest, leaves E64
reset with its own seed, moves `pc` on by one word, and changes nothing else. -/
def Obligations.Digest64EmitsAndReseeds : Prop :=
  ∀ s : State, s.e64.carryLen.toNat < 32 →
    let start :=
      if 32 ≤ s.e64.totalLen.toNat then mergeAll s.e64.lanes (converge s.e64.lanes)
      else s.e64.seed + 0x27D4EB2F165667C5#64
    let h := tailWalk64 s.e64.carry.toList s.e64.carryLen.toNat (start + s.e64.totalLen)
    exec .digest64 s = .next { s with
      e64 := freshE64 s.e64.seed s.e64.carry
      out := s.out ++ [⟨1#1, avalanche64 h⟩]
      pc := s.pc + 1#32 }

/-- Rules R140, R112: HASH32 of fewer than `2^64` bytes completes in every state; it appends the digest of the bytes under
the low word of the seed, computed with no engine in between, leaves E32 reset with that seed, moves `pc` on by
`3 + ceil(LEN/4)` words, and changes nothing else; the carry bytes it writes are the first `LEN mod 16`. -/
def Obligations.Hash32EmitsTheDigestOfItsBytes : Prop :=
  ∀ (seed : Word64) (data : List Byte) (s : State), data.length < 2 ^ 64 →
    ∃ carry : Vector Byte 16,
      exec (.hash32 seed data) s = .next { s with
        e32 := freshE32 (seed.extractLsb' 0 32) carry
        out := s.out ++ [⟨0#1, BitVec.ofNat 64 (xxh32 (seed.extractLsb' 0 32) data).toNat⟩]
        pc := s.pc + BitVec.ofNat 32 (3 + (data.length + 3) / 4) } ∧
      ∀ j, data.length % 16 ≤ j → carry.toList[j]? = s.e32.carry.toList[j]?

/-- Rules R141, R112: HASH64 of fewer than `2^64` bytes completes in every state; it appends the digest of the bytes under
the seed, computed with no engine in between, leaves E64 reset with that seed, moves `pc` on by `3 + ceil(LEN/4)` words,
and changes nothing else; the carry bytes it writes are the first `LEN mod 32`. -/
def Obligations.Hash64EmitsTheDigestOfItsBytes : Prop :=
  ∀ (seed : Word64) (data : List Byte) (s : State), data.length < 2 ^ 64 →
    ∃ carry : Vector Byte 32,
      exec (.hash64 seed data) s = .next { s with
        e64 := freshE64 seed carry
        out := s.out ++ [⟨1#1, xxh64 seed data⟩]
        pc := s.pc + BitVec.ofNat 32 (3 + (data.length + 3) / 4) } ∧
      ∀ j, data.length % 32 ≤ j → carry.toList[j]? = s.e64.carry.toList[j]?

/-! ### Ingest -/

/-- Rule R105: an UPDATE of no bytes changes nothing but `pc`. The spec marks this an inference of its own (rule R105,
"derived: from rule R103" and R15). -/
def Obligations.ZeroLengthUpdateIsANoOp : Prop :=
  ∀ s : State,
    (s.e32.carryLen.toNat < 16 → exec (.update32 []) s = .next { s with pc := s.pc + 1#32 }) ∧
    (s.e64.carryLen.toNat < 32 → exec (.update64 []) s = .next { s with pc := s.pc + 1#32 })

/-- Rule R106 (a) to (e), and chunk-size independence: after a `Reset` with a seed and any `Update` calls, of fewer
than `2^64` bytes in all, the engine is what the concatenation of the payloads alone determines; and two ways of
cutting the same bytes give the same digest. The clauses (a) to (e) are an inference the spec marks as its own (rule
R106, "derived: from rule R103 by induction"). -/
def Obligations.ChunkingDoesNotMatter : Prop :=
  (∀ (e : E32) (seed : BitVec 32) (chunks : List (List Byte)), chunks.flatten.length < 2 ^ 64 →
    Absorbed Config.params32 (feed Config.params32 (e.reset Config.params32 seed) chunks) seed chunks.flatten) ∧
  (∀ (e : E64) (seed : BitVec 64) (chunks : List (List Byte)), chunks.flatten.length < 2 ^ 64 →
    Absorbed Config.params64 (feed Config.params64 (e.reset Config.params64 seed) chunks) seed chunks.flatten) ∧
  (∀ (e e' : E32) (seed : BitVec 32) (chunks chunks' : List (List Byte)), chunks.flatten.length < 2 ^ 64 →
    chunks.flatten = chunks'.flatten →
    digestValue32 (feed Config.params32 (e.reset Config.params32 seed) chunks) =
      digestValue32 (feed Config.params32 (e'.reset Config.params32 seed) chunks')) ∧
  (∀ (e e' : E64) (seed : BitVec 64) (chunks chunks' : List (List Byte)), chunks.flatten.length < 2 ^ 64 →
    chunks.flatten = chunks'.flatten →
    digestValue64 (feed Config.params64 (e.reset Config.params64 seed) chunks) =
      digestValue64 (feed Config.params64 (e'.reset Config.params64 seed) chunks'))

/-- Rule R104: the block-mixer state machine, started idle, passes through exactly the phases of the rule and comes
back to idle with the engine of `Update`; rule R187: it mixes `floor((carryLen + n) / BS)` blocks. That the phases
compute `Update` is the model's claim (log entry 9). -/
def Obligations.PhaseMachineComputesUpdate : Prop :=
  (∀ (e : E32) (data : List Byte), e.carryLen.toNat < 16 →
    let path := updatePath e data.length
    phaseRun Config.params32 data path.length ⟨.idle, e, 0⟩ = ⟨.idle, e.update Config.params32 data, data.length⟩ ∧
    phaseTrace Config.params32 data path.length ⟨.idle, e, 0⟩ = path ∧
    path.count .mixc + path.count .mixd = (e.carryLen.toNat + data.length) / 16) ∧
  (∀ (e : E64) (data : List Byte), e.carryLen.toNat < 32 →
    let path := updatePath e data.length
    phaseRun Config.params64 data path.length ⟨.idle, e, 0⟩ = ⟨.idle, e.update Config.params64 data, data.length⟩ ∧
    phaseTrace Config.params64 data path.length ⟨.idle, e, 0⟩ = path ∧
    path.count .mixc + path.count .mixd = (e.carryLen.toNat + data.length) / 32)

/-- Rules R101, R102: in one block mix lane `i` depends only on its own old value and on quarter `i` of the block:
where two blocks agree on quarter `i` and two sets of lanes on lane `i`, so do the results. The spec marks this an
inference of its own (rule R102, "derived: from rule R101"). -/
def Obligations.LanesMixIndependently : Prop :=
  (∀ (buf buf' : List Byte) (off off' : Nat) (v v' : Lanes 32),
    let m := mixBlock Config.params32 4 buf off v
    let m' := mixBlock Config.params32 4 buf' off' v'
    ((buf.drop off).take 4 = (buf'.drop off').take 4 → v.v1 = v'.v1 → m.v1 = m'.v1) ∧
    ((buf.drop (off + 4)).take 4 = (buf'.drop (off' + 4)).take 4 → v.v2 = v'.v2 → m.v2 = m'.v2) ∧
    ((buf.drop (off + 8)).take 4 = (buf'.drop (off' + 8)).take 4 → v.v3 = v'.v3 → m.v3 = m'.v3) ∧
    ((buf.drop (off + 12)).take 4 = (buf'.drop (off' + 12)).take 4 → v.v4 = v'.v4 → m.v4 = m'.v4)) ∧
  (∀ (buf buf' : List Byte) (off off' : Nat) (v v' : Lanes 64),
    let m := mixBlock Config.params64 8 buf off v
    let m' := mixBlock Config.params64 8 buf' off' v'
    ((buf.drop off).take 8 = (buf'.drop off').take 8 → v.v1 = v'.v1 → m.v1 = m'.v1) ∧
    ((buf.drop (off + 8)).take 8 = (buf'.drop (off' + 8)).take 8 → v.v2 = v'.v2 → m.v2 = m'.v2) ∧
    ((buf.drop (off + 16)).take 8 = (buf'.drop (off' + 16)).take 8 → v.v3 = v'.v3 → m.v3 = m'.v3) ∧
    ((buf.drop (off + 24)).take 8 = (buf'.drop (off' + 24)).take 8 → v.v4 = v'.v4 → m.v4 = m'.v4))

/-! ### Finalize and one-shot -/

/-- Rule R133: the value of DIGEST is a function of the seed and of the bytes absorbed since the last reset. The spec
concludes this by rule R106. -/
def Obligations.DigestIsAFunctionOfSeedAndBytes : Prop :=
  (∀ (e : E32) (seed : BitVec 32) (B : List Byte), Absorbed Config.params32 e seed B → digestValue32 e = xxh32 seed B) ∧
  (∀ (e : E64) (seed : BitVec 64) (B : List Byte), Absorbed Config.params64 e seed B → digestValue64 e = xxh64 seed B)

/-- Rule R137: on an engine that has absorbed nothing since its reset, `update`, `digest`, and the same `update`,
`digest` again give the same value, and after the digest the engine is as it was but for dead carry bytes. The spec
concludes this: "It follows from rules R134 and R106". -/
def Obligations.EngineIsReusableAfterDigest : Prop :=
  (∀ (e : E32) (seed : BitVec 32) (data : List Byte), data.length < 2 ^ 64 → Absorbed Config.params32 e seed [] →
    digestValue32 (((e.update Config.params32 data).reseed Config.params32).update Config.params32 data) =
      digestValue32 (e.update Config.params32 data) ∧
    ((e.update Config.params32 data).reseed Config.params32).live = e.live) ∧
  (∀ (e : E64) (seed : BitVec 64) (data : List Byte), data.length < 2 ^ 64 → Absorbed Config.params64 e seed [] →
    digestValue64 (((e.update Config.params64 data).reseed Config.params64).update Config.params64 data) =
      digestValue64 (e.update Config.params64 data) ∧
    ((e.update Config.params64 data).reseed Config.params64).live = e.live)

/-- Rule R95: after INIT the engine is ready; a DIGEST at once emits the digest of the empty input with that seed,
which for seed 0 is `0x02CC5D05` on E32 and `0xEF46DB3751D8E999` on E64. The spec marks this an inference of its own
(rule R95, "derived: from rules R90 and R133"). -/
def Obligations.DigestRightAfterInitIsTheEmptyDigest : Prop :=
  (∀ (s : State) (seed : Word64), ∃ t u, exec (.init32 seed) s = .next t ∧ exec .digest32 t = .next u ∧
    u.out = s.out ++ [⟨0#1, BitVec.ofNat 64 (avalanche32 (seed.extractLsb' 0 32 + 0x165667B1#32)).toNat⟩]) ∧
  (∀ (s : State) (seed : Word64), ∃ t u, exec (.init64 seed) s = .next t ∧ exec .digest64 t = .next u ∧
    u.out = s.out ++ [⟨1#1, avalanche64 (seed + 0x27D4EB2F165667C5#64)⟩]) ∧
  avalanche32 0x165667B1#32 = 0x02CC5D05#32 ∧ avalanche64 0x27D4EB2F165667C5#64 = 0xEF46DB3751D8E999#64

/-- Rule R143: HASH gives the engine state and the record of INIT, UPDATE, DIGEST in a row, which do not fault; only
the final `pc` differs; and the same record for every split of the bytes over several UPDATE commands. The spec marks
this an inference of its own (rule R143, "derived: from rules R140, R141, R92, R93" and more). -/
def Obligations.OneShotEqualsInitUpdateDigest : Prop :=
  (∀ (seed : Word64) (data : List Byte) (s : State), data.length ≤ 16777215 →
    ∃ t u : State, execAll [.init32 seed, .update32 data, .digest32] s = .next t ∧ exec (.hash32 seed data) s = .next u ∧
      t = { u with pc := s.pc + BitVec.ofNat 32 (3 + 1 + (data.length + 3) / 4 + 1) } ∧
      u.pc = s.pc + BitVec.ofNat 32 (3 + (data.length + 3) / 4)) ∧
  (∀ (seed : Word64) (data : List Byte) (s : State), data.length ≤ 16777215 →
    ∃ t u : State, execAll [.init64 seed, .update64 data, .digest64] s = .next t ∧ exec (.hash64 seed data) s = .next u ∧
      t = { u with pc := s.pc + BitVec.ofNat 32 (3 + 1 + (data.length + 3) / 4 + 1) } ∧
      u.pc = s.pc + BitVec.ofNat 32 (3 + (data.length + 3) / 4)) ∧
  (∀ (seed : Word64) (pieces : List (List Byte)) (s : State), pieces.flatten.length ≤ 16777215 →
    ∃ t u : State,
      execAll (.init32 seed :: (pieces.map Instr.update32 ++ [.digest32])) s = .next t ∧
      exec (.hash32 seed pieces.flatten) s = .next u ∧ t.out = u.out) ∧
  (∀ (seed : Word64) (pieces : List (List Byte)) (s : State), pieces.flatten.length ≤ 16777215 →
    ∃ t u : State,
      execAll (.init64 seed :: (pieces.map Instr.update64 ++ [.digest64])) s = .next t ∧
      exec (.hash64 seed pieces.flatten) s = .next u ∧ t.out = u.out)

/-- Rules R131, R132: the avalanche of each engine is a bijection (on a finite type, injective). That nothing is lost
is a consequence of the shape of both rules, drawn here. -/
def Obligations.AvalancheIsInjective : Prop :=
  (∀ h h' : BitVec 32, avalanche32 h = avalanche32 h' → h = h') ∧
  (∀ h h' : BitVec 64, avalanche64 h = avalanche64 h' → h = h')

/-- Every worked example and corner case of rules R122 to R132: the short start, the length, the tail folds and walks
and the avalanche of each engine, with the values in between that the rules print. -/
def Obligations.FinalizerStepsMatchTheWorkedExamples : Prop :=
  -- R122
  shortStart Config.params32 0#32 = 0x165667B1#32 ∧
  shortStart Config.params32 0x0000ABCD#32 = 0x1657137E#32 ∧
  shortStart Config.params64 0#64 = 0x27D4EB2F165667C5#64 ∧
  shortStart Config.params32 0xFFFFFFFF#32 = 0x165667B0#32 ∧
  -- R123
  addLength 4#64 0x165667B1#32 = 0x165667B5#32 ∧
  addLength 16#64 0xE3460F50#32 = 0xE3460F60#32 ∧
  (∀ h : BitVec 32, addLength 4294967301#64 h = h + 5#32) ∧
  -- R124, R125
  tail4_32 0x165667B5#32 0x64636261#32 = 0x75275207#32 ∧
  tail4_32 0x165667B8#32 0x03020100#32 = 0x9D353573#32 ∧
  tail1_32 0x9D353573#32 0x04#8 = 0xC11D9F74#32 ∧
  tail1_32 0xE3460F61#32 0x10#8 = 0x24F036B5#32 ∧
  (∀ h : BitVec 32, tail1_32 h 0#8 = rotl h 11 * Config.params32.prime1) ∧
  -- R126, R127, R128
  laneRound Config.params64 0#64 0x0706050403020100#64 = 0x44EA5FC3244426D1#64 ∧
  tail8_64 0x27D4EB2F165667D2#64 0x0706050403020100#64 = 0x2AD8570BCC85FF74#64 ∧
  tail4_64 0x27D4EB2F165667C9#64 0x64636261#32 = 0x00E08A5499BA7DCB#64 ∧
  tail4_64 0x2AD8570BCC85FF74#64 0x0B0A0908#32 = 0x120A0E2DCCD6FB0A#64 ∧
  tail1_64 0x120A0E2DCCD6FB0A#64 0x0C#8 = 0x0344DFEB0CCC72F9#64 ∧
  tail1_64 0xC845DBC88C411C4E#64 0x20#8 = 0xFB30AF49F01F421A#64 ∧
  (∀ h : BitVec 64, tail1_64 h 0#8 = rotl h 11 * Config.params64.prime1) ∧
  -- R129
  memRead 32 ((List.range 16).map (BitVec.ofNat 8)) 0 4 = 0x03020100#32 ∧
  tail1_32 0xC11D9F74#32 0x05#8 = 0x573C2BA6#32 ∧
  tail1_32 0x573C2BA6#32 0x06#8 = 0x799FC1CA#32 ∧
  tailWalk32 ((List.range 16).map (BitVec.ofNat 8)) 7 0x165667B8#32 = 0x799FC1CA#32 ∧
  (∀ (buf : List Byte) (h : BitVec 32), tailWalk32 buf 0 h = h) ∧
  -- R130
  memRead 64 ((List.range 32).map (BitVec.ofNat 8)) 0 8 = 0x0706050403020100#64 ∧
  memRead 32 ((List.range 32).map (BitVec.ofNat 8)) 8 4 = 0x0B0A0908#32 ∧
  tailWalk64 ((List.range 32).map (BitVec.ofNat 8)) 13 0x27D4EB2F165667D2#64 = 0x0344DFEB0CCC72F9#64 ∧
  -- R131
  avalanche32 0#32 = 0#32 ∧
  0x75275207#32 ^^^ shr 0x75275207#32 15 = 0x7527B849#32 ∧ 0x7527B849#32 * Config.params32.prime2 = 0xE4E343EF#32 ∧
  0xE4E343EF#32 ^^^ shr 0xE4E343EF#32 13 = 0xE4E464F5#32 ∧ 0xE4E464F5#32 * Config.params32.prime3 = 0xA3649461#32 ∧
  0xA3649461#32 ^^^ shr 0xA3649461#32 16 = 0xA3643705#32 ∧
  avalanche32 0x75275207#32 = 0xA3643705#32 ∧
  -- R132
  avalanche64 0#64 = 0#64 ∧
  0x00E08A5499BA7DCB#64 ^^^ shr 0x00E08A5499BA7DCB#64 33 = 0x00E08A5499CA38E1#64 ∧
  0x00E08A5499CA38E1#64 * Config.params64.prime2 = 0xFC0DFF0678F2186F#64 ∧
  0xFC0DFF0678F2186F#64 ^^^ shr 0xFC0DFF0678F2186F#64 29 = 0xFC0DFF01989DE05C#64 ∧
  0xFC0DFF01989DE05C#64 * Config.params64.prime3 = 0xDE0327B00C5EB57C#64 ∧
  0xDE0327B00C5EB57C#64 ^^^ shr 0xDE0327B00C5EB57C#64 32 = 0xDE0327B0D25D92CC#64 ∧
  avalanche64 0x00E08A5499BA7DCB#64 = 0xDE0327B0D25D92CC#64

/-- Seven of the eight vectors of the source (95_test_vectors.md section 1: S1, S2, S4 to S8), as digests of bytes. -/
def Obligations.SourceVectorsAreReproduced : Prop :=
  xxh32 0#32 [0x61#8, 0x62#8, 0x63#8, 0x64#8] = 0xA3643705#32 ∧
  xxh32 0#32 [0x61#8, 0x62#8, 0x63#8] = 0x32D153FF#32 ∧
  xxh32 0#32 [0x68#8, 0x65#8, 0x69#8, 0xC3#8, 0xA5#8] = 0xDB5ABCCC#32 ∧
  xxh64 0#64 [0x61#8, 0x62#8, 0x63#8, 0x64#8] = 0xDE0327B0D25D92CC#64 ∧
  xxh64 0#64 [0x61#8, 0x62#8, 0x63#8] = 0x44BC2CF5AD770999#64 ∧
  xxh32 0xABCD#32 [0x61#8, 0x62#8, 0x63#8, 0x64#8] = 0xCDA8FAE4#32 ∧
  xxh64 0xABCD#64 [0x61#8, 0x62#8, 0x63#8, 0x64#8] = 0xE29F70F8B8C96DF7#64

/-! ### Arithmetic -/

/-- Rules R70 to R73, R75, R76: the primitives are the natural-number operations of the rules, reduced modulo `2^W`.
Rule R75 gives `shr` for `0 < s < W` only; that it is `x div 2^s` for the other amounts too, which never occur, is the
model's choice (log entry 15). -/
def Obligations.PrimitivesReduceModuloTwoToTheWidth : Prop :=
  ∀ (w : Nat) (a b : BitVec w) (s n : Nat),
    (a + b).toNat = (a.toNat + b.toNat) % 2 ^ w ∧
    (a - b).toNat = (2 ^ w - b.toNat + a.toNat) % 2 ^ w ∧
    (a * b).toNat = a.toNat * b.toNat % 2 ^ w ∧
    (shr a s).toNat = a.toNat / 2 ^ s ∧
    (trunc n a).toNat = a.toNat % 2 ^ n ∧
    (w ≤ n → (zext n a).toNat = a.toNat) ∧
    (∀ i, (a ^^^ b).getLsbD i = Bool.xor (a.getLsbD i) (b.getLsbD i))

/-- Rule R74: for `0 < r < W`, `rotl` is the sum the rule writes, its summands share no set bit, and bit `i` moves to bit
`(i + r) mod W`; with the four examples of the rule. -/
def Obligations.RotateMovesEveryBit : Prop :=
  (∀ (w : Nat) (x : BitVec w) (r : Nat), 0 < r → r < w →
    (rotl x r).toNat = x.toNat * 2 ^ r % 2 ^ w + x.toNat / 2 ^ (w - r) ∧
    (x <<< r) &&& (x >>> (w - r)) = 0#w ∧
    ∀ i, i < w → (rotl x r).getLsbD ((i + r) % w) = x.getLsbD i) ∧
  rotl 0x80000001#32 13 = 0x00003000#32 ∧ rotl 0x12345678#32 1 = 0x2468ACF0#32 ∧
  rotl 0x0123456789ABCDEF#64 31 = 0xC4D5E6F78091A2B3#64 ∧ rotl 0x0123456789ABCDEF#64 27 = 0x3C4D5E6F78091A2B#64

/-- Rules R77, R100: `Round` is the formula of the rule on natural numbers, masked after every operation, with the
constants of rules R6 and R7 in decimal. -/
def Obligations.RoundMasksAfterEveryOperation : Prop :=
  (∀ acc k : BitVec 32, (laneRound Config.params32 acc k).toNat =
    roundNat 32 13 2654435761 2246822519 acc.toNat k.toNat) ∧
  (∀ acc k : BitVec 64, (laneRound Config.params64 acc k).toNat =
    roundNat 64 31 11400714785074694791 14029467366897019727 acc.toNat k.toNat)

/-- Rule R86 (with rule R82's finer split): on every operand and every amount `0 < r, s < 64` the halved operations
represent the values of the 64-bit primitives. -/
def Obligations.WideHelperRefinesThePrimitives : Prop :=
  ∀ (a b : Word64) (r : Nat), 0 < r → r < 64 →
    (add64H (Halves.ofWord64 a) (Halves.ofWord64 b)).toWord64 = a + b ∧
    (sub64H (Halves.ofWord64 a) (Halves.ofWord64 b)).toWord64 = a - b ∧
    (mul64H (Halves.ofWord64 a) (Halves.ofWord64 b)).toWord64 = a * b ∧
    (rotl64H (Halves.ofWord64 a) r).toWord64 = rotl a r ∧
    (shr64H (Halves.ofWord64 a) r).toWord64 = shr a r ∧
    (xor64H (Halves.ofWord64 a) (Halves.ofWord64 b)).toWord64 = a ^^^ b ∧
    (∀ x y : BitVec 32, mulFull32ByLimbs x y = x.toNat * y.toNat)

/-- Rule R32: a read of 1, 4 or 8 bytes inside a buffer is the little-endian sum of the rule. -/
def Obligations.MemReadIsLittleEndian : Prop :=
  ∀ (w : Nat) (buf : List Byte) (off n : Nat), n = 1 ∨ n = 4 ∨ n = 8 → off + n ≤ buf.length → 8 * n ≤ w →
    (memRead w buf off n).toNat = ((List.range n).map (fun i => (buf.getD (off + i) 0#8).toNat * 2 ^ (8 * i))).sum

/-! ### The machine as a whole -/

/-- The invariants hold in the state after hardware reset that the host is given (the stream is empty and the carry bytes
are zero there by the model's choice, log entries 2 and 8). -/
def Obligations.ResetMeetsTheInvariant : Prop := State.reset.Inv

/-- Rules R15, R19, R22, R23: every step keeps the invariants, from every state that meets them. -/
def Obligations.StepKeepsTheInvariant : Prop := ∀ s t : State, s.Inv → step s = .next t → t.Inv

/-- Rules R29, R170, R171: every host event keeps the invariants; hardware reset establishes them, and after it and
after a launch from an invariant state the block stands in a launch state with `MODE = RUN`. -/
def Obligations.HostEventsKeepTheInvariant : Prop :=
  (∀ (ev : HostEvent) (s t : State), s.Inv → hostEvent ev s = .next t → t.Inv) ∧
  (∀ (s t : State) (cs : List Word) (a : Vector Byte 16) (b : Vector Byte 32),
    hostEvent (.hardwareReset cs a b) s = .next t → t.Inv ∧ t.Launchable) ∧
  (∀ (s t : State) (cs : List Word), s.Inv → hostEvent (.launch cs) s = .next t → t.Launchable)

/-- Rules R28, R90: the tabulated reset values are those that `HardwareReset` computes from the constants; the carry bytes
and the stream of `State.reset` are the model's choice (log entries 2 and 8). -/
def Obligations.ResetStateIsWhatHardwareResetComputes : Prop :=
  ∀ s : State, s.hardwareReset [] (Vector.replicate 16 0#8) (Vector.replicate 32 0#8) = State.reset

/-- Rule R170: hardware reset, in any state, writes every piece of state, with the carry bytes left open, and a DIGEST32
issued first thing emits the empty-input digest for seed 0. -/
def Obligations.HardwareResetWritesEverything : Prop :=
  ∀ (s : State) (cs : List Word) (a : Vector Byte 16) (b : Vector Byte 32), cs.length ≤ 4294967295 →
    ∃ t : State, hostEvent (.hardwareReset cs a b) s = .next t ∧
      t = { e32 := freshE32 0#32 a, e64 := freshE64 0#64 b, pc := 0#32, cs := cs, out := [], status := 0#32,
            fpc := 0#32, fword := 0#32 } ∧
      exec .digest32 t = .next { t with out := [⟨0#1, 0x02CC5D05#64⟩], pc := 1#32 }

/-- Rule R171: launch sets the stream, `pc` to 0 and `MODE` to `RUN`, and keeps the engines, `OUT`, `FPC`, `FWORD`; after
hardware reset the block is in `RUN` at `pc = 0` with the stream supplied. The rule says only that launch requires
`MODE = DONE`: that the model refuses it by name in every other mode (DEDUCED), and that it writes nothing of `STATUS`
but `MODE` (DESIGN CHOICE), is log entry 12. -/
def Obligations.LaunchKeepsTheEngines : Prop :=
  ∀ (s : State) (cs : List Word), cs.length ≤ 4294967295 →
    (statusMode s.status = 1#2 → hostEvent (.launch cs) s =
      .next { s with cs := cs, pc := 0#32, status := s.status &&& 0xFFFFFFFC#32 }) ∧
    (statusMode s.status ≠ 1#2 → hostEvent (.launch cs) s = .refused .launchNotDone) ∧
    (∀ (a : Vector Byte 16) (b : Vector Byte 32), ∃ t, hostEvent (.hardwareReset cs a b) s = .next t ∧ t.cs = cs ∧
      t.pc = 0#32 ∧ statusMode t.status = 0#2)

/-- Rules R11, R21, R23, R40: what no step changes. The stream is never written; `OUT` only grows, by at most one record;
`FPC` and `FWORD` change only where a fault is entered; only DIGEST and HASH append; only INIT and HASH change a seed. -/
def Obligations.WholeMachineFrame : Prop :=
  (∀ s t : State, step s = .next t →
    t.cs = s.cs ∧ (∃ l, t.out = s.out ++ l ∧ l.length ≤ 1) ∧
    (statusMode t.status = 2#2 ∨ (t.fpc = s.fpc ∧ t.fword = s.fword))) ∧
  (∀ (i : Instr) (s t : State), exec i s = .next t →
    t.cs = s.cs ∧ (i.emits = false → t.out = s.out) ∧
    (i.constructs = false → t.e32.seed = s.e32.seed ∧ t.e64.seed = s.e64.seed))

/-- Rule R19: from an invariant state a step that leaves the block running has executed a command, `pc` has moved on
by exactly its `cmdlen` without wrapping and is at most `CSLEN`; a step that stops it leaves `pc`. The spec marks this
an inference of its own (rule R19, "derived: from rule R59 and rule R152"). -/
def Obligations.PcMovesOnByCmdlenWithoutWrap : Prop :=
  ∀ s t : State, s.Inv → step s = .next t →
    (statusMode t.status = 0#2 → ∃ w rest i, s.cs.drop s.pc.toNat = w :: rest ∧ decode w rest = .ok i ∧
      t.pc.toNat = s.pc.toNat + i.cmdlen ∧ t.pc.toNat ≤ s.cs.length) ∧
    (statusMode t.status ≠ 0#2 → t.pc = s.pc)

/-- Rule R160: every run ends: from an invariant state in `MODE = RUN`, within `CSLEN - pc + 1` steps `MODE` has left
`RUN`. -/
def Obligations.EveryRunEnds : Prop :=
  ∀ s : State, s.Inv → statusMode s.status = 0#2 →
    ∃ k t, k ≤ s.cs.length - s.pc.toNat + 1 ∧ runSteps k s = .next t ∧ statusMode t.status ≠ 0#2

/-- Rule R112: in a run that starts from hardware reset, `LENGTH_OVERFLOW` does not occur, whatever the stream and the
carry bytes. The spec marks this an inference of its own (rule R112, "derived: from" rule R8). -/
def Obligations.NoLengthOverflowFromHardwareReset : Prop :=
  ∀ (s t : State) (cs : List Word) (a : Vector Byte 16) (b : Vector Byte 32) (k : Nat), cs.length ≤ 4294967295 →
    runSteps k (s.hardwareReset cs a b) = .next t → statusCause t.status ≠ 4#4

/-- Rules R41, R160, R161: from a launch state, a stream that encodes a list of well-formed commands runs them in order,
one step each, and then ends in `DONE` with the state that executing them one after another leaves, when none of them
raises a fault. -/
def Obligations.StreamsRunInOrderToDone : Prop :=
  ∀ (is : List Instr) (s t : State), s.Launchable → (∀ i ∈ is, i.wf = true) → s.cs = is.flatMap encode →
    execAll is s = .next t → t.status = 0#32 → runSteps (is.length + 1) s = .next { t with status := 1#32 }

/-- Rule R26 (a): no step depends on a dead carry byte: states that agree on everything else have the same outcome, up
to dead carry bytes. So no claim rests on the carry bytes that `State.reset` chooses (log entry 2). The spec marks
this an inference of its own (rule R26, "derived: from rule R103"). -/
def Obligations.DeadCarryBytesAreNeverObserved : Prop :=
  ∀ s s' : State, s.live = s'.live → liveOutcome (step s) = liveOutcome (step s')

/-- Rule R18: a command for one engine neither reads nor writes the other: with any other engine in its place the
outcome is the same and the other engine is still there. The spec marks this an inference of its own (rule R18,
"derived: from rules R92, R93" and more). -/
def Obligations.CommandsIgnoreTheOtherEngine : Prop :=
  (∀ (i : Instr) (s : State) (x : E64), i.onE32 = true →
    exec i { s with e64 := x } = mapNext (fun t => { t with e64 := x }) (exec i s)) ∧
  (∀ (i : Instr) (s : State) (x : E32), i.onE64 = true →
    exec i { s with e32 := x } = mapNext (fun t => { t with e32 := x }) (exec i s))

/-- Rule R18: two adjacent commands for different engines, in either order, that raise no fault may be exchanged; the
engines, `pc` and the status registers come out the same and only the order of the records in `OUT` changes. The spec
marks this an inference of its own (rule R18, "derived: from rules R92, R93" and more). -/
def Obligations.CommandsOfDifferentEnginesExchange : Prop :=
  ∀ (a b : Instr) (s t u : State),
    (a.onE32 = true ∧ b.onE64 = true) ∨ (a.onE64 = true ∧ b.onE32 = true) → statusMode s.status = 0#2 →
    exec a s = .next t → t.status = s.status → exec b t = .next u → u.status = t.status →
    ∃ t' u' la lb, exec b s = .next t' ∧ exec a t' = .next u' ∧
      u.out = s.out ++ la ++ lb ∧ u' = { u with out := s.out ++ lb ++ la }

/-! ### Assembler -/

/-- Rule R64 (3): `UPDATE.L` with more than `LEN_MAX` bytes becomes `ceil(n / LEN_MAX)` updates, each but the last of
`LEN_MAX` bytes, carrying the bytes in order, with the effect of one update of all the bytes. -/
def Obligations.LongUpdateEqualsOneUpdate : Prop :=
  ∀ data : List Byte, 16777215 < data.length →
    (∃ pieces : List (List Byte), expandLine (.update32Long data) = pieces.map .update32 ∧
      expandLine (.update64Long data) = pieces.map .update64 ∧
      pieces.flatten = data ∧ pieces.length = (data.length + 16777214) / 16777215 ∧
      (∀ p ∈ pieces, p.length ≤ 16777215) ∧ (∀ p ∈ pieces.dropLast, p.length = 16777215) ∧
      (∀ e : E32, e.carryLen.toNat < 16 → e.totalLen.toNat + data.length < 2 ^ 64 →
        (feed Config.params32 e pieces).live = (e.update Config.params32 data).live) ∧
      (∀ e : E64, e.carryLen.toNat < 32 → e.totalLen.toNat + data.length < 2 ^ 64 →
        (feed Config.params64 e pieces).live = (e.update Config.params64 data).live))

/-- Rules R63, R64: all twelve worked encodings of 30_encoding.md (after rule R65) from text to words, in the order of
the table, then the four pseudo-commands with the default seed and a comment. White space and the placing of the comment
are read as log entry 14 says. -/
def Obligations.AssemblerGivesTheWorkedEncodings : Prop :=
  assembleText "NOP".toList = some [0x00000000#32] ∧
  assembleText "INIT32 0xABCD".toList = some [0x10000000#32, 0x0000ABCD#32, 0x00000000#32] ∧
  assembleText "INIT64 0x0123456789ABCDEF".toList = some [0x18000000#32, 0x89ABCDEF#32, 0x01234567#32] ∧
  assembleText "UPDATE32 \"abcd\"".toList = some [0x20000004#32, 0x64636261#32] ∧
  assembleText "UPDATE32 \"abc\"".toList = some [0x20000003#32, 0x00636261#32] ∧
  assembleText "UPDATE64 x\"\"".toList = some [0x28000000#32] ∧
  assembleText "UPDATE64 \"abcde\"".toList = some [0x28000005#32, 0x64636261#32, 0x00000065#32] ∧
  assembleText "DIGEST32".toList = some [0x30000000#32] ∧
  assembleText "DIGEST64".toList = some [0x38000000#32] ∧
  assembleText "HASH32 0xABCD, \"abcd\"".toList = some [0x40000004#32, 0x0000ABCD#32, 0#32, 0x64636261#32] ∧
  assembleText "HASH64 0, \"abc\"".toList = some [0x48000003#32, 0#32, 0#32, 0x00636261#32] ∧
  assembleText "HASH32 0, x\"686569C3A5\"".toList =
    some [0x40000005#32, 0#32, 0#32, 0xC3696568#32, 0x000000A5#32] ∧
  assembleText "INIT32".toList = some [0x10000000#32, 0#32, 0#32] ∧
  assembleText "INIT64".toList = some [0x18000000#32, 0#32, 0#32] ∧
  assembleText "HASH32 \"abc\"".toList = some [0x40000003#32, 0#32, 0#32, 0x00636261#32] ∧
  assembleText "HASH64 \"abc\"".toList = some [0x48000003#32, 0#32, 0#32, 0x00636261#32] ∧
  assembleText "INIT64 0x0123456789ABCDEF ; seed".toList = some [0x18000000#32, 0x89ABCDEF#32, 0x01234567#32]

/-! ### The lanes by example -/

/-- Every worked example and corner case of rules R100, R101, R120, R121: a round, a block mix, the lane combination of
each engine and the merge of the four lanes, with the values in between that the rules print. -/
def Obligations.LaneStepsMatchTheWorkedExamples : Prop :=
  -- R100, E32
  laneRound Config.params32 0#32 0#32 = 0#32 ∧
  rotl Config.params32.prime2 13 = 0x794EF0BD#32 ∧
  laneRound Config.params32 0#32 1#32 = 0x8DF8C7AD#32 ∧
  laneRound Config.params32 0xFFFFFFFF#32 0xFFFFFFFF#32 = 0xD3CFBEA2#32 ∧
  0x64636261#32 * Config.params32.prime2 = 0xC9DE4517#32 ∧
  0x24234428#32 + 0xC9DE4517#32 = 0xEE01893F#32 ∧
  rotl 0xEE01893F#32 13 = 0x3127FDC0#32 ∧
  0x3127FDC0#32 * Config.params32.prime1 = 0xE7D631C0#32 ∧
  laneRound Config.params32 0x24234428#32 0x64636261#32 = 0xE7D631C0#32 ∧
  -- R100, E64
  laneRound Config.params64 0#64 0#64 = 0#64 ∧
  rotl Config.params64.prime2 31 = 0x93EA75A7E159571E#64 ∧
  laneRound Config.params64 0#64 1#64 = 0x7F0E345BE3649CD2#64 ∧
  laneRound Config.params64 0xFFFFFFFFFFFFFFFF#64 0xFFFFFFFFFFFFFFFF#64 = 0xE2BA51F296AF98A7#64 ∧
  laneRound Config.params64 0x60EA27EEADC0B5D6#64 0x0706050403020100#64 = 0xF4B53B57406B5E99#64 ∧
  -- R101: the quarters, then the lanes
  memRead 32 ((List.range 16).map (BitVec.ofNat 8)) 0 4 = 0x03020100#32 ∧
  memRead 32 ((List.range 16).map (BitVec.ofNat 8)) 4 4 = 0x07060504#32 ∧
  memRead 32 ((List.range 16).map (BitVec.ofNat 8)) 8 4 = 0x0B0A0908#32 ∧
  memRead 32 ((List.range 16).map (BitVec.ofNat 8)) 12 4 = 0x0F0E0D0C#32 ∧
  seededLanes Config.params32 0#32 = ⟨0x24234428#32, 0x85EBCA77#32, 0x00000000#32, 0x61C8864F#32⟩ ∧
  mixBlock Config.params32 4 ((List.range 16).map (BitVec.ofNat 8)) 0
      ⟨0x24234428#32, 0x85EBCA77#32, 0x00000000#32, 0x61C8864F#32⟩ =
    ⟨0xF817BCCB#32, 0x0222719B#32, 0xD4B0C0A4#32, 0xDEBB7574#32⟩ ∧
  mixBlock Config.params32 4 ((List.range 16).map (BitVec.ofNat 8)) 0 (seededLanes Config.params32 0#32) =
    ⟨0xF817BCCB#32, 0x0222719B#32, 0xD4B0C0A4#32, 0xDEBB7574#32⟩ ∧
  memRead 64 ((List.range 32).map (BitVec.ofNat 8)) 0 8 = 0x0706050403020100#64 ∧
  memRead 64 ((List.range 32).map (BitVec.ofNat 8)) 8 8 = 0x0F0E0D0C0B0A0908#64 ∧
  memRead 64 ((List.range 32).map (BitVec.ofNat 8)) 16 8 = 0x1716151413121110#64 ∧
  memRead 64 ((List.range 32).map (BitVec.ofNat 8)) 24 8 = 0x1F1E1D1C1B1A1918#64 ∧
  mixBlock Config.params64 8 ((List.range 32).map (BitVec.ofNat 8)) 0 (seededLanes Config.params64 0#64) =
    ⟨0xF4B53B57406B5E99#64, 0xC3D34B511FC32561#64, 0xCB26C007C8A1553F#64, 0x9A44D001A7F91C07#64⟩ ∧
  -- R120, E32
  rotl 0xF817BCCB#32 1 = 0xF02F7997#32 ∧ rotl 0x0222719B#32 7 = 0x1138CD81#32 ∧
  rotl 0xD4B0C0A4#32 12 = 0x0C0A4D4B#32 ∧ rotl 0xDEBB7574#32 18 = 0xD5D37AED#32 ∧
  converge (⟨0xF817BCCB#32, 0x0222719B#32, 0xD4B0C0A4#32, 0xDEBB7574#32⟩ : Lanes 32) = 0xE3460F50#32 ∧
  -- R120, E64
  rotl 0xF4B53B57406B5E99#64 1 = 0xE96A76AE80D6BD33#64 ∧ rotl 0xC3D34B511FC32561#64 7 = 0xE9A5A88FE192B0E1#64 ∧
  rotl 0xCB26C007C8A1553F#64 12 = 0x6C007C8A1553FCB2#64 ∧ rotl 0x9A44D001A7F91C07#64 18 = 0x40069FE4701E6913#64 ∧
  converge (⟨0xF4B53B57406B5E99#64, 0xC3D34B511FC32561#64, 0xCB26C007C8A1553F#64, 0x9A44D001A7F91C07#64⟩ : Lanes 64) =
    0x7F173BACE7DBD3D9#64 ∧
  -- R121
  laneRound Config.params64 0#64 0xF4B53B57406B5E99#64 = 0x9CD67B4D40A72EF4#64 ∧
  mergeRound 0x7F173BACE7DBD3D9#64 0xF4B53B57406B5E99#64 = 0xF4F010017EB0B31E#64 ∧
  laneRound Config.params64 0#64 0xC3D34B511FC32561#64 = 0xDD60FE6790F3F09B#64 ∧
  mergeRound 0xF4F010017EB0B31E#64 0xC3D34B511FC32561#64 = 0x3EBAF0888F893B86#64 ∧
  laneRound Config.params64 0#64 0xCB26C007C8A1553F#64 = 0xBD5C8ED0D808921A#64 ∧
  mergeRound 0x3EBAF0888F893B86#64 0xCB26C007C8A1553F#64 = 0x570DD21AF61C37A7#64 ∧
  laneRound Config.params64 0#64 0x9A44D001A7F91C07#64 = 0x3AF12CA7A85553C1#64 ∧
  mergeRound 0x570DD21AF61C37A7#64 0x9A44D001A7F91C07#64 = 0xC845DBC88C411C2D#64 ∧
  mergeAll ⟨0xF4B53B57406B5E99#64, 0xC3D34B511FC32561#64, 0xCB26C007C8A1553F#64, 0x9A44D001A7F91C07#64⟩
    0x7F173BACE7DBD3D9#64 = 0xC845DBC88C411C2D#64 ∧
  (∀ h : BitVec 64, mergeRound h 0#64 = h * Config.params64.prime1 + Config.params64.prime4)
end

