-- ==== Sys2Proof/Laws/Decode.lean ====
section
/-! SUPPORT. Laws of the encoding (30_encoding.md): header fields and row selection as arithmetic on the header's number,
packing and unpacking of payload words. -/

namespace Sys2Proof

/-! ### Header fields as arithmetic -/

theorem headerOp_toNat (w : Word) : (headerOp w).toNat = w.toNat / 2 ^ 28 % 16 := by
  simp [headerOp, Nat.shiftRight_eq_div_pow]

theorem headerEng_toNat (w : Word) : (headerEng w).toNat = w.toNat / 2 ^ 27 % 2 := by
  simp [headerEng, Nat.shiftRight_eq_div_pow]

theorem headerZero_toNat (w : Word) : (headerZero w).toNat = w.toNat / 2 ^ 24 % 8 := by
  simp [headerZero, Nat.shiftRight_eq_div_pow]

theorem headerLen_eq (w : Word) : headerLen w = w.toNat % 2 ^ 24 := by
  simp [headerLen]

/-- The bits of the mask of formats P and SP: the top byte. -/
theorem topByte_bit : ∀ i : Fin 32, (0xFF000000#32).getLsbD i.val = decide (24 ≤ i.val) := by decide

/-- The mask of formats P and SP keeps the top byte. -/
theorem topByte_mask (w : Word) : w &&& 0xFF000000#32 = (w >>> 24) <<< 24 := by
  apply BitVec.eq_of_getLsbD_eq
  intro i hi
  rw [BitVec.getLsbD_and, topByte_bit ⟨i, hi⟩, BitVec.getLsbD_shiftLeft, BitVec.getLsbD_ushiftRight]
  by_cases h : 24 ≤ i
  · simp [h, hi, show ¬ i < 24 by omega, show 24 + (i - 24) = i by omega]
  · simp [h, show i < 24 by omega]

/-- A row of a format with payload is selected by the top byte. -/
theorem masked_iff (w p : Word) : (w &&& 0xFF000000#32 == p) = true ↔ w.toNat / 2 ^ 24 * 2 ^ 24 = p.toNat := by
  have hw := w.isLt
  rw [topByte_mask, beq_iff_eq, ← BitVec.toNat_inj, BitVec.toNat_shiftLeft, BitVec.toNat_ushiftRight,
    Nat.shiftLeft_eq, Nat.shiftRight_eq_div_pow, Nat.mod_eq_of_lt (by omega)]

/-- A row of a format without payload is selected by the whole word. -/
theorem unmasked_iff (w p : Word) : (w &&& 0xFFFFFFFF#32 == p) = true ↔ w.toNat = p.toNat := by
  rw [beq_iff_eq, ← BitVec.toNat_inj, show (0xFFFFFFFF#32) = BitVec.allOnes 32 by decide, BitVec.and_allOnes]

/-- When a header selects the row of a mnemonic, as arithmetic (rule R58). -/
theorem selects_iff (o : Opcode) (w : Word) : (rowOf o).selects w = true ↔
    match o with
    | .nop => w.toNat = 0
    | .init32 => w.toNat = 0x10000000
    | .init64 => w.toNat = 0x18000000
    | .update32 => w.toNat / 2 ^ 24 = 0x20
    | .update64 => w.toNat / 2 ^ 24 = 0x28
    | .digest32 => w.toNat = 0x30000000
    | .digest64 => w.toNat = 0x38000000
    | .hash32 => w.toNat / 2 ^ 24 = 0x40
    | .hash64 => w.toNat / 2 ^ 24 = 0x48 := by
  cases o <;> simp only [Row.selects, rowOf, unmasked_iff, masked_iff] <;> simp only [BitVec.toNat_ofNat] <;> omega

/-- Every row of the map is the row of its mnemonic. -/
theorem mem_opcodeRows {r : Row} : r ∈ opcodeRows ↔ r = rowOf r.opcode := by
  constructor
  · intro h
    simp only [opcodeRows, List.mem_cons, List.not_mem_nil, or_false] at h
    rcases h with h | h | h | h | h | h | h | h | h <;> subst h <;> rfl
  · intro h
    rw [h]
    cases r.opcode <;> decide

/-- A header selects the row of at most one mnemonic (rule R58). -/
theorem selects_unique {o o' : Opcode} {w : Word} (h : (rowOf o).selects w = true) (h' : (rowOf o').selects w = true) :
    o = o' := by
  rw [selects_iff] at h h'
  cases o <;> cases o' <;> first | rfl | (dsimp only at h h'; omega)

/-- `findRow` gives the row of `o` exactly when the header selects it. -/
theorem findRow_eq_some_iff (w : Word) (o : Opcode) : findRow w = some (rowOf o) ↔ (rowOf o).selects w = true := by
  constructor
  · intro h
    have := List.find?_some h
    simpa using this
  · intro h
    cases hf : findRow w with
    | none =>
      have := List.find?_eq_none.mp hf (rowOf o) (by cases o <;> decide)
      exact absurd h (by simpa using this)
    | some r =>
      have hs : r.selects w = true := by simpa using List.find?_some hf
      have hm := mem_opcodeRows.mp (List.mem_of_find?_eq_some hf)
      rw [hm] at hs ⊢
      rw [selects_unique hs h]

/-- What `findRow` gives is the row of a mnemonic. -/
theorem findRow_some_row {w : Word} {r : Row} (h : findRow w = some r) : r = rowOf r.opcode :=
  mem_opcodeRows.mp (List.mem_of_find?_eq_some h)

/-- `findRow` gives none exactly when no mnemonic's row is selected (rule R60). -/
theorem findRow_eq_none_iff (w : Word) : findRow w = none ↔ ∀ o, (rowOf o).selects w = false := by
  constructor
  · intro h o
    have := List.find?_eq_none.mp h (rowOf o) (by cases o <;> decide)
    simpa using this
  · intro h
    refine List.find?_eq_none.mpr ?_
    intro r hr
    rw [mem_opcodeRows.mp hr, h]
    simp

/-! ### Payload words -/

/-- The number a packed word holds. -/
theorem packWord_toNat (b0 b1 b2 b3 : Byte) :
    (packWord b0 b1 b2 b3).toNat = b0.toNat + 2 ^ 8 * b1.toNat + 2 ^ 16 * b2.toNat + 2 ^ 24 * b3.toNat := by
  show (b3 ++ b2 ++ b1 ++ b0).toNat = _
  rw [BitVec.toNat_append, BitVec.toNat_append, BitVec.toNat_append]
  rw [← Nat.shiftLeft_add_eq_or_of_lt b2.isLt, ← Nat.shiftLeft_add_eq_or_of_lt b1.isLt,
    ← Nat.shiftLeft_add_eq_or_of_lt b0.isLt]
  simp only [Nat.shiftLeft_eq]
  ring

/-- Unpacking a packed word gives its four bytes (rule R57). -/
@[simp] theorem unpackWord_packWord (b0 b1 b2 b3 : Byte) : unpackWord (packWord b0 b1 b2 b3) = [b0, b1, b2, b3] := by
  have h0 := b0.isLt
  have h1 := b1.isLt
  have h2 := b2.isLt
  have h3 := b3.isLt
  simp only [unpackWord, List.cons.injEq, and_true]
  refine ⟨?_, ?_, ?_, ?_⟩ <;>
    (apply BitVec.eq_of_toNat_eq
     rw [BitVec.extractLsb'_toNat, packWord_toNat, Nat.shiftRight_eq_div_pow]
     omega)

/-- Packing the four bytes of a word gives the word (rule R57). -/
theorem packWord_unpack (w : Word) :
    packWord (w.extractLsb' 0 8) (w.extractLsb' 8 8) (w.extractLsb' 16 8) (w.extractLsb' 24 8) = w := by
  apply BitVec.eq_of_toNat_eq
  have := w.isLt
  simp only [packWord_toNat, BitVec.extractLsb'_toNat, Nat.shiftRight_eq_div_pow]
  omega

/-- The number of payload words (rule R50). -/
@[simp] theorem packBytes_length (data : List Byte) : (packBytes data).length = (data.length + 3) / 4 := by
  induction data using packBytes.induct with
  | case1 => rfl
  | case2 => simp [packBytes]
  | case3 => simp [packBytes]
  | case4 => simp [packBytes]
  | case5 b0 b1 b2 b3 bs ih => simp [packBytes, ih]; omega

/-- The payload words carry the bytes (rule R57). -/
theorem payloadBytes_packBytes (data : List Byte) : payloadBytes data.length (packBytes data) = data := by
  induction data using packBytes.induct with
  | case1 => rfl
  | case2 => simp [packBytes, payloadBytes]
  | case3 => simp [packBytes, payloadBytes]
  | case4 => simp [packBytes, payloadBytes]
  | case5 b0 b1 b2 b3 bs ih =>
    simp only [payloadBytes] at ih
    simp [packBytes, payloadBytes, ih]

/-! ### Decoding and encoding -/

/-- A row names its mnemonic. -/
theorem rowOf_opcode (o : Opcode) : (rowOf o).opcode = o := by cases o <;> rfl

/-- The row of a command's mnemonic has the command's format. -/
theorem rowOf_format (i : Instr) : (rowOf i.opcode).format = i.format := by cases i <;> rfl

/-- Decoding where the header selects the row of `o` (rule R59). -/
theorem decode_of_selects {o : Opcode} {w : Word} (h : (rowOf o).selects w = true) (rest : List Word) :
    decode w rest =
      let fmt := (rowOf o).format
      let payload := (rest.drop (seedWordCount fmt)).take (payloadWordCount fmt (headerLen w))
      if rest.length < seedWordCount fmt + payloadWordCount fmt (headerLen w) then .error .truncatedCommand
      else if paddingIsZero (headerLen w) payload then
        .ok (o.build (seedOperand fmt rest) (payloadBytes (headerLen w) payload))
      else .error .nonzeroPad := by
  simp only [decode, (findRow_eq_some_iff w o).mpr h, rowOf_opcode]

/-- The header of a well-formed command. -/
theorem header_toNat {i : Instr} (h : i.wf = true) :
    i.header.toNat = (rowOf i.opcode).pattern.toNat + i.payload.length := by
  have h' : i.payload.length ≤ 16777215 := of_decide_eq_true h
  rw [Instr.header, BitVec.toNat_or, BitVec.toNat_ofNat, Nat.mod_eq_of_lt (by omega)]
  have : (rowOf i.opcode).pattern.toNat = ((rowOf i.opcode).pattern.toNat / 2 ^ 24) <<< 24 := by
    rw [Nat.shiftLeft_eq]; cases i <;> simp [Instr.opcode, rowOf]
  rw [this, ← Nat.shiftLeft_add_eq_or_of_lt (by omega)]

/-- The header of a well-formed command selects its row. -/
theorem header_selects {i : Instr} (h : i.wf = true) : (rowOf i.opcode).selects i.header = true := by
  have h' : i.payload.length ≤ 16777215 := of_decide_eq_true h
  rw [selects_iff, header_toNat h]
  cases i <;> simp [Instr.opcode, rowOf, Instr.payload] at h' ⊢ <;> omega

/-- The header of a well-formed command carries the payload length. -/
theorem header_len {i : Instr} (h : i.wf = true) : headerLen i.header = i.payload.length := by
  have h' : i.payload.length ≤ 16777215 := of_decide_eq_true h
  rw [headerLen_eq, header_toNat h]
  cases i <;> simp [Instr.opcode, rowOf, Instr.payload] at h' ⊢ <;> omega

/-- The number of seed words (rule R50). -/
theorem seedWords_length (i : Instr) : i.seedWords.length = seedWordCount i.format := by cases i <;> rfl

/-- Formats N and S carry no payload. -/
theorem payload_nil_of (i : Instr) (h : i.format = .n ∨ i.format = .s) : i.payload = [] := by
  cases i <;> simp_all [Instr.format, Instr.payload]

/-- The number of payload words of a command. -/
theorem payloadWordCount_payload (i : Instr) : payloadWordCount i.format i.payload.length = (i.payload.length + 3) / 4 := by
  cases i <;> simp [payloadWordCount, Instr.format, Instr.payload]

/-- A last word whose number is small has zero padding. -/
theorem pad_shift (b0 b1 b2 b3 : Byte) (n : Nat) (hn : n < 4) (h : b0.toNat + 2 ^ 8 * b1.toNat + 2 ^ 16 * b2.toNat + 2 ^ 24 * b3.toNat < 2 ^ (8 * n)) :
    paddingIsZero n [packWord b0 b1 b2 b3] = true := by
  have hz : packWord b0 b1 b2 b3 >>> (8 * (n % 4)) = 0#32 := by
    apply BitVec.eq_of_toNat_eq
    rw [BitVec.toNat_ushiftRight, packWord_toNat, Nat.shiftRight_eq_div_pow, Nat.mod_eq_of_lt hn, Nat.div_eq_of_lt h]
    rfl
  simp [paddingIsZero, hz]

/-- Packed bytes have zero padding (rule R57). -/
theorem packBytes_padding (data : List Byte) : paddingIsZero data.length (packBytes data) = true := by
  induction data using packBytes.induct with
  | case1 => rfl
  | case2 b => exact pad_shift b 0#8 0#8 0#8 1 (by decide) (by have := b.isLt; simp; omega)
  | case3 b b1 => exact pad_shift b b1 0#8 0#8 2 (by decide) (by have := b.isLt; have := b1.isLt; simp; omega)
  | case4 b b1 b2 =>
    exact pad_shift b b1 b2 0#8 3 (by decide) (by have := b.isLt; have := b1.isLt; have := b2.isLt; simp; omega)
  | case5 b0 b1 b2 b3 bs ih =>
    simp only [packBytes, paddingIsZero, List.getLast?_cons] at ih ⊢
    cases h : packBytes bs with
    | nil => 
      have := packBytes_length bs
      rw [h] at this; simp at this
      have : bs.length = 0 := by omega
      simp [this]
    | cons x xs => 
      rw [h] at ih
      simp [List.getLast?_cons] at ih ⊢
      rcases ih with h | h
      · left; omega
      · right; rw [show bs.length + 1 + 1 + 1 + 1 = bs.length + 4 by omega, Nat.add_mod_right]; exact h

/-- The number of a seed operand (rule R56). -/
theorem seedOfWords_toNat (lo hi : Word) : (seedOfWords lo hi).toNat = hi.toNat * 2 ^ 32 + lo.toNat := by
  show (hi ++ lo).toNat = _
  rw [BitVec.toNat_append, ← Nat.shiftLeft_add_eq_or_of_lt lo.isLt, Nat.shiftLeft_eq]

/-- A seed is put together from its words. -/
theorem seed_split (s : Word64) : seedOfWords (s.extractLsb' 0 32) (s.extractLsb' 32 32) = s := by
  have := s.isLt
  apply BitVec.eq_of_toNat_eq
  simp only [seedOfWords_toNat, BitVec.extractLsb'_toNat, Nat.shiftRight_eq_div_pow]; omega

/-- The low word of a seed operand. -/
theorem seed_lo (lo hi : Word) : (seedOfWords lo hi).extractLsb' 0 32 = lo := by
  have := lo.isLt
  apply BitVec.eq_of_toNat_eq
  simp only [seedOfWords_toNat, BitVec.extractLsb'_toNat, Nat.shiftRight_eq_div_pow]; omega

/-- The high word of a seed operand. -/
theorem seed_hi (lo hi : Word) : (seedOfWords lo hi).extractLsb' 32 32 = hi := by
  have := lo.isLt
  have := hi.isLt
  apply BitVec.eq_of_toNat_eq
  simp only [seedOfWords_toNat, BitVec.extractLsb'_toNat, Nat.shiftRight_eq_div_pow]; omega

/-- Four bytes a word. -/
theorem unpack_length (ws : List Word) : (ws.flatMap unpackWord).length = 4 * ws.length := by
  induction ws with
  | nil => rfl
  | cons w ws ih => simp [ih, unpackWord]; omega

/-- As many bytes as asked for, where the words carry that many. -/
theorem payloadBytes_length (len : Nat) (ws : List Word) (h : len ≤ 4 * ws.length) : (payloadBytes len ws).length = len := by
  rw [payloadBytes, List.length_take, unpack_length]; omega

/-- A last word with zero padding is what its bytes pack to. -/
theorem pack_last (w : Word) (n : Nat) (hn : n < 4) (h0 : 0 < n) (h : w >>> (8 * n) = 0#32) :
    packBytes ((unpackWord w).take n) = [w] := by
  have h' : w.toNat / 2 ^ (8 * n) = 0 := by
    have := congrArg BitVec.toNat h
    simpa [BitVec.toNat_ushiftRight, Nat.shiftRight_eq_div_pow] using this
  have hw := packWord_unpack w
  have hl := w.isLt
  have e := congrArg BitVec.toNat hw
  rw [packWord_toNat] at e
  rcases n with _ | _ | _ | _ | n
  · omega
  all_goals simp only [unpackWord, List.take_succ_cons, List.take_zero, packBytes, List.cons.injEq, and_true]
  all_goals try omega
  all_goals apply BitVec.eq_of_toNat_eq
  all_goals rw [packWord_toNat]
  all_goals simp only [BitVec.extractLsb'_toNat, Nat.shiftRight_eq_div_pow, BitVec.toNat_ofNat] at e ⊢
  all_goals simp at h' ⊢
  all_goals omega

/-- Payload words with zero padding are what their bytes pack to (rule R57). -/
theorem pack_unpack (ws : List Word) (len : Nat) (hl : ws.length = (len + 3) / 4) (hp : paddingIsZero len ws = true) :
    packBytes (payloadBytes len ws) = ws := by
  induction ws generalizing len with
  | nil => simp [payloadBytes, packBytes]
  | cons w ws ih =>
    simp only [List.length_cons] at hl
    cases ws with
    | nil =>
      simp only [payloadBytes, List.flatMap_cons, List.flatMap_nil, List.append_nil]
      simp only [paddingIsZero, List.getLast?_singleton, Bool.or_eq_true, beq_iff_eq] at hp
      simp only [List.length_nil] at hl
      by_cases h4 : len = 4
      · subst h4; simp [unpackWord, packBytes, packWord_unpack]
      · rw [Nat.mod_eq_of_lt (by omega)] at hp
        exact pack_last w len (by omega) (by omega) (hp.resolve_left (by omega))
    | cons w' ws =>
      have h4 : 4 ≤ len := by simp only [List.length_cons] at hl; omega
      obtain ⟨m, rfl⟩ : ∃ m, len = m + 4 := ⟨len - 4, by omega⟩
      have := ih m (by simp only [List.length_cons] at hl ⊢; omega) (by
        simpa [paddingIsZero, List.getLast?_cons] using hp)
      simp only [payloadBytes] at this ⊢
      rw [List.flatMap_cons, unpackWord]
      simp only [List.cons_append, List.nil_append, List.take_succ_cons, packBytes, packWord_unpack, this]

/-- The mnemonic of a built command. -/
theorem build_opcode (o : Opcode) (seed : Word64) (data : List Byte) : (o.build seed data).opcode = o := by cases o <;> rfl

/-- Everything that a successful decoding says (rule R59). -/
theorem decode_ok {w : Word} {rest : List Word} {i : Instr} (h : decode w rest = .ok i) :
    (rowOf i.opcode).selects w = true ∧
    seedWordCount i.format + payloadWordCount i.format (headerLen w) ≤ rest.length ∧
    paddingIsZero (headerLen w) ((rest.drop (seedWordCount i.format)).take (payloadWordCount i.format (headerLen w))) = true ∧
    i = i.opcode.build (seedOperand i.format rest)
      (payloadBytes (headerLen w) ((rest.drop (seedWordCount i.format)).take (payloadWordCount i.format (headerLen w)))) := by
  cases hf : findRow w with
  | none => simp only [decode, hf] at h; cases h
  | some r =>
    have hr := findRow_some_row hf
    rw [hr, findRow_eq_some_iff] at hf
    rw [decode_of_selects hf] at h
    dsimp only at h
    split at h
    · cases h
    · split at h
      · rename_i h1 h2
        have h3 := Except.ok.inj h
        have ho : i.opcode = r.opcode := by rw [← h3, build_opcode]
        rw [← rowOf_format, ho]
        exact ⟨hf, by omega, h2, h3.symm⟩
      · cases h

/-- The payload of a built command. -/
theorem build_payload (o : Opcode) (seed : Word64) (data : List Byte) :
    (o.build seed data).payload = if (rowOf o).format = .p ∨ (rowOf o).format = .sp then data else [] := by
  cases o <;> rfl

/-- A command that decodes has at least its header and lies inside the stream (rules R50, R59). -/
theorem decode_cmdlen {w : Word} {rest : List Word} {i : Instr} (h : decode w rest = .ok i) :
    1 ≤ i.cmdlen ∧ i.cmdlen ≤ rest.length + 1 := by
  obtain ⟨_, hl, _, hi⟩ := decode_ok h
  have : payloadWordCount i.format i.payload.length ≤ payloadWordCount i.format (headerLen w) := by
    have : i.payload.length ≤ headerLen w := by
      rw [hi, build_payload]
      split
      · rw [payloadBytes, List.length_take]; omega
      · simp
    cases i.format <;> simp only [payloadWordCount] <;> omega
  rw [Instr.cmdlen]
  omega

/-- A command that decodes carries at most `LEN_MAX` bytes (rule R55). -/
theorem decode_payload_le {w : Word} {rest : List Word} {i : Instr} (h : decode w rest = .ok i) :
    i.payload.length ≤ 16777215 := by
  obtain ⟨_, _, _, hi⟩ := decode_ok h
  have : headerLen w ≤ 16777215 := by rw [headerLen_eq]; omega
  rw [hi, build_payload]
  split
  · rw [payloadBytes, List.length_take]; omega
  · simp

end Sys2Proof

namespace Sys2Proof.Machine
open Sys2Proof

/-! ### Headers by the tables -/

/-- The headers rule R60 lists as illegal are those that select no row. -/
theorem illegal_iff (w : Word) : illegalHeader w ↔ findRow w = none := by
  rw [findRow_eq_none_iff]
  have h0 := headerOp_toNat w
  have h1 := headerZero_toNat w
  have h2 := headerLen_eq w
  have e0 : headerOp w = 0#4 ↔ w.toNat / 2^28 % 16 = 0 := by rw [← h0, ← BitVec.toNat_inj]; rfl
  have e1 : headerOp w = 1#4 ↔ w.toNat / 2^28 % 16 = 1 := by rw [← h0, ← BitVec.toNat_inj]; rfl
  have e3 : headerOp w = 3#4 ↔ w.toNat / 2^28 % 16 = 3 := by rw [← h0, ← BitVec.toNat_inj]; rfl
  have ez : headerZero w ≠ 0#3 ↔ w.toNat / 2^24 % 8 ≠ 0 := by rw [← h1, ne_eq, ← BitVec.toNat_inj]; rfl
  have ew : w ≠ 0#32 ↔ w.toNat ≠ 0 := by rw [ne_eq, ← BitVec.toNat_inj]; rfl
  have hw := w.isLt
  rw [illegalHeader, h0, e0, e1, e3, ez, ew, h2]
  simp only [← Bool.not_eq_true]
  constructor
  · intro h o
    rw [selects_iff]
    cases o <;> dsimp only <;> omega
  · intro h
    have a := h .nop; have b := h .init32; have c := h .init64; have d := h .update32; have e := h .update64
    have f := h .digest32; have g := h .digest64; have i := h .hash32; have j := h .hash64
    rw [selects_iff] at a b c d e f g i j
    dsimp only at a b c d e f g i j
    omega

/-- Every other header selects the row of a mnemonic. -/
theorem legal_row {w : Word} (h : ¬ illegalHeader w) : ∃ o, (rowOf o).selects w = true := by
  rw [illegal_iff, findRow_eq_none_iff] at h
  simpa using h

/-- `OP` of a header tells the format of the row it selects (rule R52). -/
theorem opOf_selects {o : Opcode} {w : Word} (h : (rowOf o).selects w = true) :
    (headerOp w = 0#4 ↔ (rowOf o).format = .n ∧ o = .nop) ∧ (headerOp w = 3#4 ↔ (rowOf o).format = .n ∧ o ≠ .nop) ∧
    (headerOp w = 1#4 ↔ (rowOf o).format = .s) ∧ (headerOp w = 2#4 ↔ (rowOf o).format = .p) ∧ (headerOp w = 4#4 ↔ (rowOf o).format = .sp) := by
  have h0 := headerOp_toNat w
  have e : ∀ k : Nat, k < 16 → (headerOp w = BitVec.ofNat 4 k ↔ w.toNat / 2^28 % 16 = k) := by
    intro k hk
    rw [← h0, ← BitVec.toNat_inj, BitVec.toNat_ofNat, Nat.mod_eq_of_lt (by omega)]
  rw [e 0 (by decide), e 1 (by decide), e 2 (by decide), e 3 (by decide), e 4 (by decide)]
  rw [selects_iff] at h
  cases o <;> simp [rowOf] at h ⊢ <;> omega

/-- The length by `OP` is the length of the row the header selects (rule R50). -/
theorem lengthByOp_eq {o : Opcode} {w : Word} (h : (rowOf o).selects w = true) :
    lengthByOp w = 1 + seedWordCount (rowOf o).format + payloadWordCount (rowOf o).format (headerLen w) := by
  obtain ⟨a, b, c, d, e⟩ := opOf_selects h
  unfold lengthByOp
  cases o <;> simp_all [rowOf, seedWordCount, payloadWordCount]

end Sys2Proof.Machine
end

