-- ==== Sys2Proof/Laws/Memory.lean ====
section
/-! SUPPORT. Laws of the byte buffers (20_memory.md): byte writes, reads and what they depend on, and that every operation
on the machine keeps the form of its memory. -/

namespace Sys2Proof.Machine
open Sys2Proof

/-- A number that fits is kept. -/
theorem toNat_ofNat_lt {w n : Nat} (h : n < 2 ^ w) : (BitVec.ofNat w n).toNat = n := by
  rw [BitVec.toNat_ofNat, Nat.mod_eq_of_lt h]

/-- What the whole blocks leave. -/
theorem sub_div_mul (a b : Nat) : a - a / b * b = a % b := by
  have := Nat.div_add_mod a b; rw [Nat.mul_comm] at this; omega

/-- The carry buffer after the byte writes: the bytes before, the data, the bytes behind. -/
theorem writeBytes_toList {bs : Nat} (c : Vector Byte bs) (off : Nat) (data : List Byte) (h : off + data.length ≤ bs) :
    (writeBytes c off data).toList = c.toList.take off ++ data ++ c.toList.drop (off + data.length) := by
  induction data generalizing c off with
  | nil => simp [writeBytes]
  | cons b rest ih =>
    have hb : off + (rest.length + 1) ≤ bs := h
    have hlen : off < c.toList.length := by rw [Vector.length_toList]; omega
    have ht : (c.toList.take off).length = off := by rw [List.length_take, Vector.length_toList]; omega
    have hset : (c.setIfInBounds off b).toList = (c.toList.take off ++ [b]) ++ c.toList.drop (off + 1) := by
      rw [Vector.toList_setIfInBounds, List.set_eq_take_append_cons_drop, if_pos hlen]; simp
    have h1 : (c.toList.take off ++ [b]).length = off + 1 := by rw [List.length_append, ht]; rfl
    rw [writeBytes, ih _ _ (by omega), hset, List.take_left' h1, ← List.drop_drop, List.drop_left' h1, List.drop_drop]
    simp [List.append_assoc, Nat.add_assoc, Nat.add_comm 1]

/-- A read depends on the bytes it covers only. -/
theorem memRead_congr (w : Nat) {buf buf' : List Byte} {off off' n : Nat}
    (h : (buf.drop off).take n = (buf'.drop off').take n) : memRead w buf off n = memRead w buf' off' n := by
  rw [memRead, memRead, h]

/-- Equal slices have equal subslices. -/
theorem subslice_congr {buf buf' : List Byte} {off off' n : Nat} (h : (buf.drop off).take n = (buf'.drop off').take n)
    (i k : Nat) (hk : i + k ≤ n) : (buf.drop (off + i)).take k = (buf'.drop (off' + i)).take k := by
  have : ∀ (b : List Byte) (o : Nat), (b.drop (o + i)).take k = (((b.drop o).take n).drop i).take k := by
    intro b o
    rw [List.drop_take, List.drop_drop, List.take_take, Nat.min_eq_left (by omega)]
  rw [this, this, h]

/-- A read inside the first `n` bytes depends on those only. -/
theorem memRead_congr_take {w : Nat} {b b' : List Byte} {n : Nat} (h : b.take n = b'.take n) (p k : Nat) (hp : p + k ≤ n) :
    memRead w b p k = memRead w b' p k := by
  apply memRead_congr
  simpa using subslice_congr (buf := b) (buf' := b') (off := 0) (off' := 0) (n := n) (by simpa using h) p k hp

/-- Byte writes change no byte outside the stretch they write. -/
theorem writeBytes_outside {bs : Nat} (c : Vector Byte bs) (off : Nat) (data : List Byte) (j : Nat)
    (hj : j < off ∨ off + data.length ≤ j) : (writeBytes c off data).toList[j]? = c.toList[j]? := by
  induction data generalizing c off with
  | nil => rfl
  | cons b rest ih =>
    simp only [List.length_cons] at hj
    rw [writeBytes, ih _ _ (by omega), Vector.toList_setIfInBounds, List.getElem?_set_ne (by omega)]

/-! ### The form of memory (rule R30) is kept -/

theorem wf_reset : Memory.wf State.reset = true := by decide

@[simp] theorem wf_advance (s : State) (i : Instr) : Memory.wf (s.advance i) = Memory.wf s := rfl

@[simp] theorem wf_emit (s : State) (eng : BitVec 1) (v : Word64) : Memory.wf (s.emit eng v) = Memory.wf s := rfl

@[simp] theorem wf_endRun (s : State) : Memory.wf s.endRun = Memory.wf s := rfl

/-- Entering a fault keeps the form. -/
theorem wf_raise {s t : State} {c : Cause} (h : s.raise c = .next t) : Memory.wf t = Memory.wf s := by
  unfold State.raise at h
  split at h
  · cases h
  · cases h; rfl

/-- The host's launch keeps the form when the stream it brings has it. -/
theorem wf_launch (s : State) (cs : List Word) (h : cs.length ≤ Config.cslenMax) : Memory.wf (s.launch cs) = true := by
  simp [Memory.wf, State.launch, h]

/-- Hardware reset keeps the form when the stream it brings has it. -/
theorem wf_hardwareReset (s : State) (cs : List Word) (a : Vector Byte 16) (b : Vector Byte 32)
    (h : cs.length ≤ Config.cslenMax) : Memory.wf (s.hardwareReset cs a b) = true := by
  simp [Memory.wf, State.hardwareReset, h]

end Sys2Proof.Machine
end

