-- ==== Sys2Proof/Laws/Ingest.lean ====
section
/-! SUPPORT. Laws of ingest (42_ingest.md): block mixing over a byte sequence, and one lemma that says everything an
`Update` does. -/

namespace Sys2Proof.Machine
open Sys2Proof

/-- `MixBlock` depends on the block it reads only. -/
theorem mixBlock_congr {w : Nat} (P : EngineParams w) (q : Nat) {buf buf' : List Byte} {off off' : Nat} (v : Lanes w)
    (h : (buf.drop off).take (4 * q) = (buf'.drop off').take (4 * q)) :
    mixBlock P q buf off v = mixBlock P q buf' off' v := by
  have s := subslice_congr h
  have s0 : (buf.drop off).take q = (buf'.drop off').take q := s 0 q (by omega)
  simp only [mixBlock]
  rw [memRead_congr w s0, memRead_congr w (s q q (by omega)), memRead_congr w (s (2 * q) q (by omega)),
    memRead_congr w (s (3 * q) q (by omega))]

/-- `mixBlocks` reads the first `m` blocks only. -/
theorem mixBlocks_congr {w : Nat} (P : EngineParams w) (bs : Nat) {B B' : List Byte} (m : Nat) (v : Lanes w)
    (h : B.take (m * bs) = B'.take (m * bs)) : mixBlocks P bs B m v = mixBlocks P bs B' m v := by
  induction m with
  | zero => rfl
  | succ m ih =>
    have hq : 4 * quarter bs ≤ bs := by simp only [quarter]; omega
    have e1 : (m + 1) * bs = m * bs + bs := by ring
    rw [e1] at h
    have h0 : B.take (m * bs) = B'.take (m * bs) := by
      have := congrArg (List.take (m * bs)) h
      simpa [List.take_take] using this
    rw [mixBlocks, mixBlocks, ih h0]
    apply mixBlock_congr
    have := congrArg (fun l => (l.drop (m * bs)).take (4 * quarter bs)) h
    simpa [List.drop_take, List.take_take, Nat.min_eq_left hq] using this

/-- Blocks peeled off at the front. -/
theorem mixBlocks_succ_front {w : Nat} (P : EngineParams w) (bs : Nat) (B : List Byte) (m : Nat) (v : Lanes w) :
    mixBlocks P bs B (m + 1) v = mixBlocks P bs (B.drop bs) m (mixBlock P (quarter bs) B 0 v) := by
  induction m with
  | zero => simp [mixBlocks]
  | succ m ih =>
    rw [mixBlocks, ih, mixBlocks]
    apply mixBlock_congr
    rw [List.drop_drop, show bs + m * bs = (m + 1) * bs by ring]

/-- Blocks mixed in two goes. -/
theorem mixBlocks_add {w : Nat} (P : EngineParams w) (bs : Nat) (B : List Byte) (k m : Nat) (v : Lanes w) :
    mixBlocks P bs B (k + m) v = mixBlocks P bs (B.drop (k * bs)) m (mixBlocks P bs B k v) := by
  induction m with
  | zero => rfl
  | succ m ih =>
    rw [← Nat.add_assoc, mixBlocks, ih, mixBlocks]
    apply mixBlock_congr
    rw [List.drop_drop, show k * bs + m * bs = (k + m) * bs by ring]

/-- The loop of `U_MIXD` mixes `k` blocks from the cursor on and touches the lanes only. -/
theorem mixDirectLoop_eq {w bs cw : Nat} (P : EngineParams w) (data : List Byte) (k p : Nat) (e : Engine w bs cw) :
    Engine.mixDirectLoop P data k p e = { e with lanes := mixBlocks P bs (data.drop p) k e.lanes } := by
  induction k generalizing p e with
  | zero => rfl
  | succ k ih =>
    rw [Engine.mixDirectLoop, ih, mixBlocks_succ_front, List.drop_drop]
    simp only [Engine.mixDirect]
    congr 2
    exact mixBlock_congr _ _ _ (by simp)

/-- There are `carryLen` live carry bytes (rules R13, R15). -/
theorem liveCarry_length {w bs cw : Nat} (e : Engine w bs cw) (hc : e.carryLen.toNat ≤ bs) :
    e.liveCarry.length = e.carryLen.toNat := by
  simp [Engine.liveCarry]; omega

/-- The arm that only buffers. -/
theorem update_append {w bs cw : Nat} (P : EngineParams w) (e : Engine w bs cw) (data : List Byte)
    (h : e.carryLen.toNat + data.length < bs) : e.update P data = (e.countBytes data.length).appendCarry data := by
  simp only [Engine.update, onlyBuffers, h, decide_true, if_true]

/-- The other arm with an empty carry. -/
theorem update_direct {w bs cw : Nat} (P : EngineParams w) (e : Engine w bs cw) (data : List Byte)
    (h0 : e.carryLen.toNat = 0) (h : bs ≤ data.length) :
    e.update P data =
      { seed := e.seed
        lanes := mixBlocks P bs data (data.length / bs) e.lanes
        carry := writeBytes e.carry 0 (data.drop (data.length / bs * bs))
        carryLen := BitVec.ofNat cw (data.length - data.length / bs * bs)
        totalLen := e.totalLen + BitVec.ofNat 64 data.length } := by
  have hn : ¬ data.length < bs := by omega
  simp only [Engine.update, onlyBuffers, h0, hn, decide_false, Bool.false_eq_true, if_false, mixDirectLoop_eq,
    Engine.fillCount, if_true, Nat.sub_zero, Nat.zero_add, Engine.stash, Engine.flushCarry, Engine.countBytes,
    List.drop_zero]

/-- The other arm with bytes in the carry: their block first, then those of the input. -/
theorem update_flush {w bs cw : Nat} (P : EngineParams w) (e : Engine w bs cw) (data : List Byte)
    (h0 : e.carryLen.toNat ≠ 0) (h : bs ≤ e.carryLen.toNat + data.length) :
    e.update P data =
      let f := bs - e.carryLen.toNat
      let k := (data.length - f) / bs
      let full := writeBytes e.carry e.carryLen.toNat (data.take f)
      { seed := e.seed
        lanes := mixBlocks P bs (data.drop f) k (mixBlock P (quarter bs) full.toList 0 e.lanes)
        carry := writeBytes full 0 (data.drop (f + k * bs))
        carryLen := BitVec.ofNat cw (data.length - (f + k * bs))
        totalLen := e.totalLen + BitVec.ofNat 64 data.length } := by
  have hn : ¬ e.carryLen.toNat + data.length < bs := by omega
  simp only [Engine.update, onlyBuffers, hn, decide_false, Bool.false_eq_true, if_false, mixDirectLoop_eq,
    Engine.fillCount, h0, Engine.stash, Engine.flushCarry, Engine.countBytes, Engine.mixCarry, Engine.fillCarry]

/-- Everything one `Update` does to the live part of an engine (rule R103). -/
theorem update_spec {w bs cw : Nat} (P : EngineParams w) (e : Engine w bs cw) (data : List Byte)
    (hcw : bs < 2 ^ cw) (hc : e.carryLen.toNat < bs) (ht : e.totalLen.toNat + data.length < 2 ^ 64) :
    Ingested P e (e.update P data) data := by
  have hlc := liveCarry_length e (Nat.le_of_lt hc)
  have hpos : 0 < bs := by omega
  have htot : (e.totalLen + BitVec.ofNat 64 data.length).toNat = e.totalLen.toNat + data.length := by
    rw [BitVec.toNat_add, toNat_ofNat_lt (by omega), Nat.mod_eq_of_lt ht]
  by_cases hb : e.carryLen.toNat + data.length < bs
  · rw [update_append P e data hb]
    have hn := toNat_ofNat_lt (show e.carryLen.toNat + data.length < 2 ^ cw by omega)
    refine ⟨rfl, htot, ?_, ?_, ?_⟩
    · rw [Nat.mod_eq_of_lt hb]; exact hn
    · rw [Nat.div_eq_of_lt hb, Nat.zero_mul, List.drop_zero]
      simp only [Engine.liveCarry, Engine.appendCarry, Engine.countBytes]
      rw [hn, writeBytes_toList _ _ _ (by omega)]
      rw [List.take_left']
      simp; omega
    · rw [Nat.div_eq_of_lt hb]; rfl
  · by_cases h0 : e.carryLen.toNat = 0
    · rw [update_direct P e data h0 (by omega)]
      have hmod := Nat.mod_lt data.length hpos
      have hn := toNat_ofNat_lt (show data.length - data.length / bs * bs < 2 ^ cw by rw [sub_div_mul]; omega)
      have hnil : e.liveCarry = [] := by apply List.eq_nil_of_length_eq_zero; omega
      refine ⟨rfl, htot, ?_, ?_, ?_⟩
      · rw [h0, Nat.zero_add, ← sub_div_mul]; exact hn
      · rw [h0, hnil]
        simp only [Engine.liveCarry, Nat.zero_add, List.nil_append]
        rw [hn, writeBytes_toList _ _ _ (by rw [List.length_drop, sub_div_mul]; omega)]
        simp only [List.take_zero, List.nil_append]
        rw [List.take_left' (by simp)]
      · rw [h0, hnil, Nat.zero_add, List.nil_append]
    · rw [update_flush P e data h0 (by omega)]
      dsimp only
      obtain ⟨f, hf⟩ : ∃ f, f = bs - e.carryLen.toNat := ⟨_, rfl⟩
      have hsum : e.carryLen.toNat + data.length = bs + (data.length - f) := by omega
      have hdiv : (e.carryLen.toNat + data.length) / bs = (data.length - f) / bs + 1 := by
        rw [hsum, Nat.add_div_left _ hpos]
      have hmod : (e.carryLen.toNat + data.length) % bs = (data.length - f) % bs := by rw [hsum, Nat.add_mod_left]
      have hml := Nat.mod_lt (data.length - f) hpos
      have hsub : data.length - (f + (data.length - f) / bs * bs) = (data.length - f) % bs := by
        rw [Nat.sub_add_eq, sub_div_mul]
      have hn := toNat_ofNat_lt (show data.length - (f + (data.length - f) / bs * bs) < 2 ^ cw by rw [hsub]; omega)
      rw [← hf]
      -- the stream: live carry bytes, then the input
      have hS : ∀ j, (e.liveCarry ++ data).drop (bs + j) = data.drop (f + j) := by
        intro j
        rw [show bs + j = e.liveCarry.length + (f + j) by omega, List.drop_length_add_append]
      refine ⟨rfl, htot, ?_, ?_, ?_⟩
      · rw [hmod, ← hsub]; exact hn
      · rw [hdiv, show ((data.length - f) / bs + 1) * bs = bs + (data.length - f) / bs * bs by ring, hS]
        simp only [Engine.liveCarry]
        rw [hn, writeBytes_toList _ _ _ (by rw [List.length_drop, hsub]; omega)]
        simp only [List.take_zero, List.nil_append]
        rw [List.take_left' (by simp)]
      · rw [hdiv, mixBlocks_succ_front]
        have := hS 0
        simp only [Nat.add_zero] at this
        rw [this]
        refine congrArg _ (mixBlock_congr _ _ _ ?_)
        have hq : 4 * quarter bs ≤ bs := by simp only [quarter]; omega
        have hfull : (writeBytes e.carry e.carryLen.toNat (data.take f)).toList = (e.liveCarry ++ data).take bs := by
          rw [writeBytes_toList _ _ _ (by simp; omega), List.drop_eq_nil_of_le (by simp; omega), List.append_nil,
            List.take_append, hlc, ← hf, List.take_of_length_le (l := e.liveCarry) (by omega)]
          rfl
        rw [hfull, List.drop_zero, List.drop_zero, List.take_take, Nat.min_eq_left hq]

/-- The carry bytes an `Update` does not write keep their values (rule R103). -/
theorem update_unwritten {w bs cw : Nat} (P : EngineParams w) (e : Engine w bs cw) (data : List Byte) (j : Nat)
    (hc : e.carryLen.toNat < bs) (hj : notWrittenByUpdate e data.length j) :
    (e.update P data).carry.toList[j]? = e.carry.toList[j]? := by
  unfold notWrittenByUpdate at hj
  split at hj
  · rw [update_append P e data ‹_›]; exact writeBytes_outside _ _ _ _ hj
  · obtain ⟨h1, h2⟩ := hj
    by_cases h0 : e.carryLen.toNat = 0
    · rw [update_direct P e data h0 (by omega)]
      refine writeBytes_outside _ _ _ _ (.inr ?_)
      rw [List.length_drop, sub_div_mul]; simpa [h0] using h1
    · rw [update_flush P e data h0 (by omega)]
      have hpos : 0 < bs := by omega
      have hsum : e.carryLen.toNat + data.length = bs + (data.length - (bs - e.carryLen.toNat)) := by omega
      have hmod : (e.carryLen.toNat + data.length) % bs = (data.length - (bs - e.carryLen.toNat)) % bs := by
        rw [hsum, Nat.add_mod_left]
      dsimp only
      rw [writeBytes_outside _ _ _ _ (.inr ?_), writeBytes_outside _ _ _ _ (.inl (by omega))]
      rw [List.length_drop, Nat.sub_add_eq, sub_div_mul]; omega

/-- An `Update` of no bytes leaves the engine (rule R105). -/
theorem update_nil {w bs cw : Nat} (P : EngineParams w) (e : Engine w bs cw) (hc : e.carryLen.toNat < bs) :
    e.update P [] = e := by
  rw [update_append P e [] (by simpa using hc)]
  simp [Engine.appendCarry, Engine.countBytes, writeBytes]

/-- No `Update` writes the seed (rule R11). -/
theorem update_seed {w bs cw : Nat} (P : EngineParams w) (e : Engine w bs cw) (data : List Byte) :
    (e.update P data).seed = e.seed := by
  unfold Engine.update
  dsimp only
  split
  · rfl
  · rw [mixDirectLoop_eq]
    simp only [Engine.stash, Engine.flushCarry]
    split <;> rfl

/-- A `Reset` engine has absorbed nothing (rules R90, R106). -/
theorem absorbed_reset {w bs cw : Nat} (P : EngineParams w) (e : Engine w bs cw) (seed : BitVec w) :
    Absorbed P (e.reset P seed) seed [] := by
  refine ⟨rfl, ?_, ?_, ?_, rfl⟩ <;> simp [Engine.reset, Engine.liveCarry, mixBlocks]

/-- An `Update` of an engine that has absorbed `B` absorbs the new bytes behind `B` (rule R106). -/
theorem absorbed_update {w bs cw : Nat} (P : EngineParams w) (e : Engine w bs cw) (seed : BitVec w) (B data : List Byte)
    (hbs : 0 < bs) (hcw : bs < 2 ^ cw) (h : Absorbed P e seed B) (ht : B.length + data.length < 2 ^ 64) :
    Absorbed P (e.update P data) seed (B ++ data) := by
  have hml := Nat.mod_lt B.length hbs
  have hc : e.carryLen.toNat < bs := by rw [h.count]; exact hml
  have u := update_spec P e data hcw hc (by rw [h.total]; exact ht)
  have hda := Nat.div_add_mod B.length bs
  have hsum : B.length + data.length = bs * (B.length / bs) + (B.length % bs + data.length) := by omega
  have hdiv : (B.length + data.length) / bs = B.length / bs + (B.length % bs + data.length) / bs := by
    rw [hsum, Nat.mul_add_div hbs]
  have hmod : (B.length + data.length) % bs = (B.length % bs + data.length) % bs := by
    rw [hsum, Nat.mul_add_mod]
  have hle : B.length / bs * bs ≤ B.length := Nat.div_mul_le_self _ _
  have hS : (B ++ data).drop (B.length / bs * bs) = e.liveCarry ++ data := by
    rw [h.carry, List.drop_append_of_le_length hle]
  refine ⟨?_, ?_, ?_, ?_, ?_⟩
  · rw [u.total, h.total, List.length_append]
  · rw [u.count, h.count, List.length_append, hmod]
  · rw [u.carry, h.count, ← hS, List.drop_drop, List.length_append, hdiv]
    congr 1; ring
  · rw [u.lanes, h.count, ← hS, h.lanes, List.length_append, hdiv, mixBlocks_add]
    congr 1
    refine mixBlocks_congr P bs _ _ ?_
    rw [List.take_append_of_le_length hle]
  · rw [u.seed, h.seed]

/-- `Update` adds the number of bytes to `totalLen`, modulo `2^64` (rules R14, R103). -/
theorem update_totalLen {w bs cw : Nat} (P : EngineParams w) (e : Engine w bs cw) (data : List Byte) :
    (e.update P data).totalLen = e.totalLen + BitVec.ofNat 64 data.length := by
  unfold Engine.update
  dsimp only
  split
  · rfl
  · rw [mixDirectLoop_eq]
    simp only [Engine.stash, Engine.flushCarry]
    split <;> rfl

/-- `Update` leaves `carryLen` in range (rule R15), whatever the count. -/
theorem update_carryLen_lt {w bs cw : Nat} (P : EngineParams w) (e : Engine w bs cw) (data : List Byte)
    (hcw : bs < 2 ^ cw) (hc : e.carryLen.toNat < bs) : (e.update P data).carryLen.toNat < bs := by
  by_cases hb : e.carryLen.toNat + data.length < bs
  · rw [update_append P e data hb]
    show (BitVec.ofNat cw (e.carryLen.toNat + data.length)).toNat < bs
    rw [toNat_ofNat_lt (show e.carryLen.toNat + data.length < 2 ^ cw by omega)]
    exact hb
  · by_cases h0 : e.carryLen.toNat = 0
    · rw [update_direct P e data h0 (by omega)]
      have := Nat.mod_lt data.length (show 0 < bs by omega)
      show (BitVec.ofNat cw _).toNat < bs
      rw [toNat_ofNat_lt] <;> rw [sub_div_mul] <;> omega
    · rw [update_flush P e data h0 (by omega)]
      have := Nat.mod_lt (data.length - (bs - e.carryLen.toNat)) (show 0 < bs by omega)
      show (BitVec.ofNat cw _).toNat < bs
      rw [toNat_ofNat_lt] <;> rw [Nat.sub_add_eq, sub_div_mul] <;> omega

end Sys2Proof.Machine
end

