-- ==== Sys2Proof/Laws/Flags.lean ====
section
/-! SUPPORT. Laws of the status word (10_state.md rule R22): each field write bit by bit, reads after writes, and the masks
that say the same. -/

namespace Sys2Proof.Machine
open Sys2Proof

/-- A write of `MODE`, bit by bit. -/
theorem setStatusMode_bit (st : Word) (m : BitVec 2) (k : Nat) (hk : k < 32) :
    (setStatusMode st m).getLsbD k = if k < 2 then m.getLsbD k else st.getLsbD k := by
  show (st.extractLsb' 2 30 ++ m).getLsbD k = _
  rw [BitVec.getLsbD_append]
  by_cases h : k < 2
  · simp [h]
  · simp [h, show k - 2 < 30 by omega, show 2 + (k - 2) = k by omega]

/-- A write of `CAUSE`, bit by bit. -/
theorem setStatusCause_bit (st : Word) (c : BitVec 4) (k : Nat) (hk : k < 32) :
    (setStatusCause st c).getLsbD k = if 4 ≤ k ∧ k < 8 then c.getLsbD (k - 4) else st.getLsbD k := by
  show (st.extractLsb' 8 24 ++ c ++ st.extractLsb' 0 4).getLsbD k = _
  rw [BitVec.getLsbD_append, BitVec.getLsbD_append]
  by_cases h : k < 4
  · simp [h, show ¬ 4 ≤ k by omega]
  · by_cases h8 : k < 8
    · simp [h, h8, show k - 4 < 4 by omega, show 4 ≤ k by omega]
    · simp [h, h8, show ¬ k - 4 < 4 by omega, show k - 4 - 4 < 24 by omega, show 8 + (k - 4 - 4) = k by omega]

/-- The bits of the mask that clears `MODE` and `CAUSE`. -/
theorem faultMask_bit : ∀ i : Fin 32, (0xFFFFFF0C#32).getLsbD i.val =
    (decide (8 ≤ i.val) || decide (i.val = 2) || decide (i.val = 3)) := by decide

/-- The bits of the mask that clears `MODE`. -/
theorem modeMask_bit : ∀ i : Fin 32, (0xFFFFFFFC#32).getLsbD i.val = decide (2 ≤ i.val) := by decide

/-- The bits of the code of `FAULTED`, as a word. -/
theorem faultedWord_bit : ∀ i : Fin 32, (2#32).getLsbD i.val = decide (i.val = 1) := by decide

/-- The bits of the code of `FAULTED`. -/
theorem faultedCode_bit (k : Nat) : (2#2).getLsbD k = decide (k = 1) := by
  by_cases h : k < 2
  · have : ∀ i : Fin 2, (2#2).getLsbD i.val = decide (i.val = 1) := by decide
    exact this ⟨k, h⟩
  · rw [BitVec.getLsbD_of_ge _ _ (by omega)]
    simp; omega

/-- The status word that fault entry leaves, as a mask (rules R22, R155). -/
theorem setFaulted_eq (st : Word) (c : BitVec 4) :
    setStatusMode (setStatusCause st c) Mode.faulted.code = faultStatus st c := by
  apply BitVec.eq_of_getLsbD_eq
  intro k hk
  rw [setStatusMode_bit _ _ _ hk, setStatusCause_bit _ _ _ hk, faultStatus, BitVec.getLsbD_or, BitVec.getLsbD_or,
    BitVec.getLsbD_and, faultMask_bit ⟨k, hk⟩, faultedWord_bit ⟨k, hk⟩, BitVec.getLsbD_shiftLeft, BitVec.getLsbD_setWidth,
    Mode.code, faultedCode_bit]
  by_cases h1 : k < 2
  · simp [h1, hk, show k < 4 by omega, show ¬ 8 ≤ k by omega, show k ≠ 2 by omega, show k ≠ 3 by omega]
  · by_cases h2 : k < 4
    · simp [h1, h2, hk, show ¬ 8 ≤ k by omega, show ¬ 4 ≤ k by omega, show k = 2 ∨ k = 3 by omega,
        show k ≠ 1 by omega]
    · by_cases h3 : k < 8
      · simp [h1, h2, h3, hk, show ¬ 8 ≤ k by omega, show 4 ≤ k by omega, show k ≠ 2 by omega, show k ≠ 3 by omega,
          show k - 4 < 32 by omega, show k ≠ 1 by omega]
      · simp [h1, h2, h3, hk, show 8 ≤ k by omega, show 4 ≤ k by omega, show k ≠ 1 by omega, show 4 ≤ k - 4 by omega]

/-- A write of `MODE`, as a mask. -/
theorem setStatusMode_eq (st : Word) (m : BitVec 2) :
    setStatusMode st m = (st &&& 0xFFFFFFFC#32) ||| m.setWidth 32 := by
  apply BitVec.eq_of_getLsbD_eq
  intro k hk
  rw [setStatusMode_bit _ _ _ hk, BitVec.getLsbD_or, BitVec.getLsbD_and, modeMask_bit ⟨k, hk⟩, BitVec.getLsbD_setWidth]
  by_cases h1 : k < 2
  · simp [h1, hk]
  · simp [h1, hk, show 2 ≤ k by omega]

/-- `MODE` reads as written. -/
@[simp] theorem statusMode_setStatusMode (st : Word) (m : BitVec 2) : statusMode (setStatusMode st m) = m := by
  apply BitVec.eq_of_getLsbD_eq
  intro k hk
  rw [statusMode, BitVec.getLsbD_extractLsb', Nat.zero_add, setStatusMode_bit _ _ _ (by omega)]
  simp [hk]

/-- A write of `MODE` leaves `CAUSE`. -/
@[simp] theorem statusCause_setStatusMode (st : Word) (m : BitVec 2) :
    statusCause (setStatusMode st m) = statusCause st := by
  apply BitVec.eq_of_getLsbD_eq
  intro k hk
  rw [statusCause, statusCause, BitVec.getLsbD_extractLsb', BitVec.getLsbD_extractLsb',
    setStatusMode_bit _ _ _ (by omega), if_neg (by omega)]

/-- `CAUSE` reads as written. -/
@[simp] theorem statusCause_setStatusCause (st : Word) (c : BitVec 4) : statusCause (setStatusCause st c) = c := by
  apply BitVec.eq_of_getLsbD_eq
  intro k hk
  rw [statusCause, BitVec.getLsbD_extractLsb', setStatusCause_bit _ _ _ (by omega), if_pos (by omega),
    Nat.add_sub_cancel_left]
  simp [hk]

/-- A legal status word in `RUN` is zero (rule R22). -/
theorem legal_run {st : Word} (h : legalStatus st = true) (h0 : statusMode st = Mode.run.code) : st = 0#32 := by
  simp only [legalStatus, Bool.or_eq_true, beq_iff_eq] at h
  rcases h with ((((h | h) | h) | h) | h) | h <;> subst h <;> revert h0 <;> decide

end Sys2Proof.Machine
end

