-- ==== Sys2Proof/Laws/Ops.lean ====
section
/-! SUPPORT. Laws of the shared machine operations (Machine/Ops.lean): everything that fault entry, the fetch and a step can
do, each said once. -/

namespace Sys2Proof.Machine
open Sys2Proof

/-- The first word of what is left of a list is the word at that index. -/
theorem getElem?_of_drop {α : Type} {l rest : List α} {n : Nat} {w : α} (h : l.drop n = w :: rest) : l[n]? = some w := by
  have := congrArg (·[0]?) h
  simpa using this

/-- What is left of a list counts its length. -/
theorem length_of_drop {α : Type} {l rest : List α} {n : Nat} {w : α} (h : l.drop n = w :: rest) :
    l.length = n + 1 + rest.length := by
  have := congrArg List.length h
  simp at this
  omega

/-- Fault entry where `CS` has a word at `pc` (rule R155). -/
theorem raise_eq {s : State} {w : Word} (h : s.cs[s.pc.toNat]? = some w) (c : Cause) :
    s.raise c = .next (faultState s c.code w) := by
  simp only [State.raise, h, faultState, setFaulted_eq]

/-- Everything fault entry can do. -/
theorem raise_next {s t : State} {c : Cause} (h : s.raise c = .next t) :
    ∃ w, s.cs[s.pc.toNat]? = some w ∧ t = faultState s c.code w := by
  cases hw : s.cs[s.pc.toNat]? with
  | none => simp [State.raise, hw] at h
  | some w =>
    rw [raise_eq hw] at h
    exact ⟨w, rfl, (Host.Outcome.next.inj h).symm⟩

/-- The mode fault entry leaves (rule R155). -/
theorem faultStatus_mode (st : Word) (c : BitVec 4) : statusMode (faultStatus st c) = Mode.faulted.code := by
  rw [← setFaulted_eq, statusMode_setStatusMode]

/-- The cause fault entry leaves (rule R155). -/
theorem faultStatus_cause (st : Word) (c : BitVec 4) : statusCause (faultStatus st c) = c := by
  rw [← setFaulted_eq, statusCause_setStatusMode, statusCause_setStatusCause]

/-- Everything a step with a next state can do: end the run at the end of the stream, enter a fault of decoding, or execute
the decoded command (rule R160). -/
theorem step_next {s t : State} (h : step s = .next t) :
    statusMode s.status = Mode.run.code ∧
    ((s.pc.toNat = s.cs.length ∧ t = s.endRun) ∨
      (∃ w rest f, s.cs.drop s.pc.toNat = w :: rest ∧ decode w rest = .error f ∧
        t = faultState s (causeOfDecode f).code w) ∨
      (∃ w rest i, s.cs.drop s.pc.toNat = w :: rest ∧ decode w rest = .ok i ∧ exec i s = .next t)) := by
  unfold step sequencerStep at h
  by_cases h0 : statusMode s.status = Mode.run.code
  · refine ⟨h0, ?_⟩
    rw [if_pos h0] at h
    unfold runningStep State.fetch at h
    cases hd : s.cs.drop s.pc.toNat with
    | nil =>
      simp only [hd] at h
      by_cases he : s.pc.toNat = s.cs.length
      · rw [if_pos he] at h
        exact .inl ⟨he, (Host.Outcome.next.inj h).symm⟩
      · rw [if_neg he] at h
        cases h
    | cons w rest =>
      simp only [hd] at h
      cases hi : decode w rest with
      | error f =>
        simp only [hi] at h
        rw [raise_eq (getElem?_of_drop hd)] at h
        exact .inr (.inl ⟨w, rest, f, rfl, hi, (Host.Outcome.next.inj h).symm⟩)
      | ok i =>
        simp only [hi] at h
        exact .inr (.inr ⟨w, rest, i, rfl, hi, h⟩)
  · rw [if_neg h0] at h
    split at h
    · cases h
    · split at h <;> cases h

/-- A step where the words at `pc` do not decode (rules R155, R160). -/
theorem step_of_error {s : State} {w : Word} {rest : List Word} {f : DecodeFault}
    (h0 : statusMode s.status = Mode.run.code) (hd : s.cs.drop s.pc.toNat = w :: rest) (hf : decode w rest = .error f) :
    step s = .next (faultState s (causeOfDecode f).code w) := by
  simp only [step, sequencerStep, if_pos h0, runningStep, State.fetch, hd, hf, raise_eq (getElem?_of_drop hd)]

end Sys2Proof.Machine
end

