-- ==== Sys2Proof/Laws/State.lean ====
section
/-! SUPPORT. One lemma per field per update of the state and of an engine, all true by definition, so that no proof need
unfold an update. Each is proved by `(rfl)`, in brackets, so that `simp` rewrites with it and leaves no definitional check
of a whole state to the kernel: comparing `x + c` with `y` for a large constant `c` is what the kernel must never be asked. -/

namespace Sys2Proof.Machine
open Sys2Proof

/-! ### Moving past a command, appending a record, ending the run -/

@[simp] theorem advance_e32 (s : State) (i : Instr) : (s.advance i).e32 = s.e32 := (rfl)
@[simp] theorem advance_e64 (s : State) (i : Instr) : (s.advance i).e64 = s.e64 := (rfl)
@[simp] theorem advance_pc (s : State) (i : Instr) : (s.advance i).pc = s.pc + BitVec.ofNat 32 i.cmdlen := (rfl)
@[simp] theorem advance_cs (s : State) (i : Instr) : (s.advance i).cs = s.cs := (rfl)
@[simp] theorem advance_out (s : State) (i : Instr) : (s.advance i).out = s.out := (rfl)
@[simp] theorem advance_status (s : State) (i : Instr) : (s.advance i).status = s.status := (rfl)
@[simp] theorem advance_fpc (s : State) (i : Instr) : (s.advance i).fpc = s.fpc := (rfl)
@[simp] theorem advance_fword (s : State) (i : Instr) : (s.advance i).fword = s.fword := (rfl)

@[simp] theorem emit_e32 (s : State) (eng : BitVec 1) (v : Word64) : (s.emit eng v).e32 = s.e32 := (rfl)
@[simp] theorem emit_e64 (s : State) (eng : BitVec 1) (v : Word64) : (s.emit eng v).e64 = s.e64 := (rfl)
@[simp] theorem emit_pc (s : State) (eng : BitVec 1) (v : Word64) : (s.emit eng v).pc = s.pc := (rfl)
@[simp] theorem emit_cs (s : State) (eng : BitVec 1) (v : Word64) : (s.emit eng v).cs = s.cs := (rfl)
@[simp] theorem emit_out (s : State) (eng : BitVec 1) (v : Word64) : (s.emit eng v).out = s.out ++ [⟨eng, v⟩] := (rfl)
@[simp] theorem emit_status (s : State) (eng : BitVec 1) (v : Word64) : (s.emit eng v).status = s.status := (rfl)
@[simp] theorem emit_fpc (s : State) (eng : BitVec 1) (v : Word64) : (s.emit eng v).fpc = s.fpc := (rfl)
@[simp] theorem emit_fword (s : State) (eng : BitVec 1) (v : Word64) : (s.emit eng v).fword = s.fword := (rfl)

@[simp] theorem endRun_e32 (s : State) : s.endRun.e32 = s.e32 := (rfl)
@[simp] theorem endRun_e64 (s : State) : s.endRun.e64 = s.e64 := (rfl)
@[simp] theorem endRun_pc (s : State) : s.endRun.pc = s.pc := (rfl)
@[simp] theorem endRun_cs (s : State) : s.endRun.cs = s.cs := (rfl)
@[simp] theorem endRun_out (s : State) : s.endRun.out = s.out := (rfl)
@[simp] theorem endRun_status (s : State) : s.endRun.status = setStatusMode s.status Mode.done.code := (rfl)
@[simp] theorem endRun_fpc (s : State) : s.endRun.fpc = s.fpc := (rfl)
@[simp] theorem endRun_fword (s : State) : s.endRun.fword = s.fword := (rfl)

/-! ### Digest of an engine -/

@[simp] theorem finishE32_e32 (s : State) (e : E32) : (s.finishE32 e).e32 = e.reseed Config.params32 := (rfl)
@[simp] theorem finishE32_e64 (s : State) (e : E32) : (s.finishE32 e).e64 = s.e64 := (rfl)
@[simp] theorem finishE32_pc (s : State) (e : E32) : (s.finishE32 e).pc = s.pc := (rfl)
@[simp] theorem finishE32_cs (s : State) (e : E32) : (s.finishE32 e).cs = s.cs := (rfl)
@[simp] theorem finishE32_out (s : State) (e : E32) :
    (s.finishE32 e).out = s.out ++ [⟨0#1, zext 64 (digestValue32 e)⟩] := (rfl)
@[simp] theorem finishE32_status (s : State) (e : E32) : (s.finishE32 e).status = s.status := (rfl)
@[simp] theorem finishE32_fpc (s : State) (e : E32) : (s.finishE32 e).fpc = s.fpc := (rfl)
@[simp] theorem finishE32_fword (s : State) (e : E32) : (s.finishE32 e).fword = s.fword := (rfl)

@[simp] theorem finishE64_e32 (s : State) (e : E64) : (s.finishE64 e).e32 = s.e32 := (rfl)
@[simp] theorem finishE64_e64 (s : State) (e : E64) : (s.finishE64 e).e64 = e.reseed Config.params64 := (rfl)
@[simp] theorem finishE64_pc (s : State) (e : E64) : (s.finishE64 e).pc = s.pc := (rfl)
@[simp] theorem finishE64_cs (s : State) (e : E64) : (s.finishE64 e).cs = s.cs := (rfl)
@[simp] theorem finishE64_out (s : State) (e : E64) : (s.finishE64 e).out = s.out ++ [⟨1#1, digestValue64 e⟩] := (rfl)
@[simp] theorem finishE64_status (s : State) (e : E64) : (s.finishE64 e).status = s.status := (rfl)
@[simp] theorem finishE64_fpc (s : State) (e : E64) : (s.finishE64 e).fpc = s.fpc := (rfl)
@[simp] theorem finishE64_fword (s : State) (e : E64) : (s.finishE64 e).fword = s.fword := (rfl)

/-! ### Fault entry -/

@[simp] theorem faultState_e32 (s : State) (c : BitVec 4) (w : Word) : (faultState s c w).e32 = s.e32 := (rfl)
@[simp] theorem faultState_e64 (s : State) (c : BitVec 4) (w : Word) : (faultState s c w).e64 = s.e64 := (rfl)
@[simp] theorem faultState_pc (s : State) (c : BitVec 4) (w : Word) : (faultState s c w).pc = s.pc := (rfl)
@[simp] theorem faultState_cs (s : State) (c : BitVec 4) (w : Word) : (faultState s c w).cs = s.cs := (rfl)
@[simp] theorem faultState_out (s : State) (c : BitVec 4) (w : Word) : (faultState s c w).out = s.out := (rfl)
@[simp] theorem faultState_status (s : State) (c : BitVec 4) (w : Word) :
    (faultState s c w).status = faultStatus s.status c := (rfl)
@[simp] theorem faultState_fpc (s : State) (c : BitVec 4) (w : Word) : (faultState s c w).fpc = s.pc := (rfl)
@[simp] theorem faultState_fword (s : State) (c : BitVec 4) (w : Word) : (faultState s c w).fword = w := (rfl)

/-! ### The host's actions -/

@[simp] theorem launch_e32 (s : State) (cs : List Word) : (s.launch cs).e32 = s.e32 := (rfl)
@[simp] theorem launch_e64 (s : State) (cs : List Word) : (s.launch cs).e64 = s.e64 := (rfl)
@[simp] theorem launch_pc (s : State) (cs : List Word) : (s.launch cs).pc = 0#32 := (rfl)
@[simp] theorem launch_cs (s : State) (cs : List Word) : (s.launch cs).cs = cs := (rfl)
@[simp] theorem launch_out (s : State) (cs : List Word) : (s.launch cs).out = s.out := (rfl)
@[simp] theorem launch_status (s : State) (cs : List Word) :
    (s.launch cs).status = setStatusMode s.status Mode.run.code := (rfl)
@[simp] theorem launch_fpc (s : State) (cs : List Word) : (s.launch cs).fpc = s.fpc := (rfl)
@[simp] theorem launch_fword (s : State) (cs : List Word) : (s.launch cs).fword = s.fword := (rfl)

/-! ### Engine updates -/

section engine
variable {w bs cw : Nat} (P : EngineParams w) (e : Engine w bs cw)

@[simp] theorem reset_seed (x : BitVec w) : (e.reset P x).seed = x := (rfl)
@[simp] theorem reset_lanes (x : BitVec w) : (e.reset P x).lanes = seededLanes P x := (rfl)
@[simp] theorem reset_carry (x : BitVec w) : (e.reset P x).carry = e.carry := (rfl)
@[simp] theorem reset_carryLen (x : BitVec w) : (e.reset P x).carryLen = 0#cw := (rfl)
@[simp] theorem reset_totalLen (x : BitVec w) : (e.reset P x).totalLen = 0#64 := (rfl)

/-- Step 6 of `Digest` is a `Reset` with the engine's seed. -/
theorem reseed_eq : e.reseed P = e.reset P e.seed := (rfl)

@[simp] theorem reseed_seed : (e.reseed P).seed = e.seed := (rfl)
@[simp] theorem reseed_carry : (e.reseed P).carry = e.carry := (rfl)
@[simp] theorem reseed_carryLen : (e.reseed P).carryLen = 0#cw := (rfl)
@[simp] theorem reseed_totalLen : (e.reseed P).totalLen = 0#64 := (rfl)

@[simp] theorem countBytes_seed (n : Nat) : (e.countBytes n).seed = e.seed := (rfl)
@[simp] theorem countBytes_lanes (n : Nat) : (e.countBytes n).lanes = e.lanes := (rfl)
@[simp] theorem countBytes_carry (n : Nat) : (e.countBytes n).carry = e.carry := (rfl)
@[simp] theorem countBytes_carryLen (n : Nat) : (e.countBytes n).carryLen = e.carryLen := (rfl)
@[simp] theorem countBytes_totalLen (n : Nat) : (e.countBytes n).totalLen = e.totalLen + BitVec.ofNat 64 n := (rfl)

@[simp] theorem appendCarry_seed (d : List Byte) : (e.appendCarry d).seed = e.seed := (rfl)
@[simp] theorem appendCarry_lanes (d : List Byte) : (e.appendCarry d).lanes = e.lanes := (rfl)
@[simp] theorem appendCarry_carry (d : List Byte) :
    (e.appendCarry d).carry = writeBytes e.carry e.carryLen.toNat d := (rfl)
@[simp] theorem appendCarry_carryLen (d : List Byte) :
    (e.appendCarry d).carryLen = BitVec.ofNat cw (e.carryLen.toNat + d.length) := (rfl)
@[simp] theorem appendCarry_totalLen (d : List Byte) : (e.appendCarry d).totalLen = e.totalLen := (rfl)

@[simp] theorem fillCarry_seed (d : List Byte) : (e.fillCarry d).seed = e.seed := (rfl)
@[simp] theorem fillCarry_lanes (d : List Byte) : (e.fillCarry d).lanes = e.lanes := (rfl)
@[simp] theorem fillCarry_totalLen (d : List Byte) : (e.fillCarry d).totalLen = e.totalLen := (rfl)

@[simp] theorem mixCarry_seed : (e.mixCarry P).seed = e.seed := (rfl)
@[simp] theorem mixCarry_carry : (e.mixCarry P).carry = e.carry := (rfl)
@[simp] theorem mixCarry_carryLen : (e.mixCarry P).carryLen = 0#cw := (rfl)
@[simp] theorem mixCarry_totalLen : (e.mixCarry P).totalLen = e.totalLen := (rfl)

@[simp] theorem mixDirect_seed (d : List Byte) (p : Nat) : (e.mixDirect P d p).seed = e.seed := (rfl)
@[simp] theorem mixDirect_carry (d : List Byte) (p : Nat) : (e.mixDirect P d p).carry = e.carry := (rfl)
@[simp] theorem mixDirect_carryLen (d : List Byte) (p : Nat) : (e.mixDirect P d p).carryLen = e.carryLen := (rfl)
@[simp] theorem mixDirect_totalLen (d : List Byte) (p : Nat) : (e.mixDirect P d p).totalLen = e.totalLen := (rfl)

@[simp] theorem stash_seed (d : List Byte) (p : Nat) : (e.stash d p).seed = e.seed := (rfl)
@[simp] theorem stash_lanes (d : List Byte) (p : Nat) : (e.stash d p).lanes = e.lanes := (rfl)
@[simp] theorem stash_carry (d : List Byte) (p : Nat) : (e.stash d p).carry = writeBytes e.carry 0 (d.drop p) := (rfl)
@[simp] theorem stash_carryLen (d : List Byte) (p : Nat) :
    (e.stash d p).carryLen = BitVec.ofNat cw (d.length - p) := (rfl)
@[simp] theorem stash_totalLen (d : List Byte) (p : Nat) : (e.stash d p).totalLen = e.totalLen := (rfl)

end engine

end Sys2Proof.Machine
end

