-- ==== Sys2Proof/Laws/Exec.lean ====
section
/-! SUPPORT. Laws of execution (Machine/Dispatch.lean): everything a command can do, said once. A next state is named through
variables for the new engines and records, so that a field of it is read without unfolding an engine operation (the kernel
must never be asked to compare `x + c` with `y` for a large constant `c`). -/

namespace Sys2Proof.Machine
open Sys2Proof

/-- What a command leaves in E32. -/
def engine32After (i : Instr) (e : E32) : E32 :=
  match i with
  | .nop => e
  | .init32 seed => e.reset Config.params32 (seedForEngine 32 seed)
  | .init64 _ => e
  | .update32 data => e.update Config.params32 data
  | .update64 _ => e
  | .digest32 => e.reseed Config.params32
  | .digest64 => e
  | .hash32 seed data =>
    ((e.reset Config.params32 (seedForEngine 32 seed)).update Config.params32 data).reseed Config.params32
  | .hash64 _ _ => e

/-- What a command leaves in E64. -/
def engine64After (i : Instr) (e : E64) : E64 :=
  match i with
  | .nop => e
  | .init32 _ => e
  | .init64 seed => e.reset Config.params64 (seedForEngine 64 seed)
  | .update32 _ => e
  | .update64 data => e.update Config.params64 data
  | .digest32 => e
  | .digest64 => e.reseed Config.params64
  | .hash32 _ _ => e
  | .hash64 seed data =>
    ((e.reset Config.params64 (seedForEngine 64 seed)).update Config.params64 data).reseed Config.params64

/-- The records a command appends. -/
def recordsOf (i : Instr) (e32 : E32) (e64 : E64) : List OutRecord :=
  match i with
  | .nop => []
  | .init32 _ => []
  | .init64 _ => []
  | .update32 _ => []
  | .update64 _ => []
  | .digest32 => [⟨0#1, zext 64 (digestValue32 e32)⟩]
  | .digest64 => [⟨1#1, digestValue64 e64⟩]
  | .hash32 seed data =>
    [⟨0#1, zext 64 (digestValue32 ((e32.reset Config.params32 (seedForEngine 32 seed)).update Config.params32 data))⟩]
  | .hash64 seed data =>
    [⟨1#1, digestValue64 ((e64.reset Config.params64 (seedForEngine 64 seed)).update Config.params64 data)⟩]

/-- The command raises `LENGTH_OVERFLOW` (rule R154). -/
def overflows (i : Instr) (s : State) : Prop :=
  (∃ data, i = .update32 data ∧ 2 ^ 64 ≤ s.e32.totalLen.toNat + data.length) ∨
    (∃ data, i = .update64 data ∧ 2 ^ 64 ≤ s.e64.totalLen.toNat + data.length)

/-- The command needs rule R15 of the engine it selects and has it. -/
def inRange (i : Instr) (s : State) : Prop :=
  match i with
  | .nop => True
  | .init32 _ => True
  | .init64 _ => True
  | .update32 _ => s.e32.carryLen.toNat < 16
  | .update64 _ => s.e64.carryLen.toNat < 32
  | .digest32 => s.e32.carryLen.toNat < 16
  | .digest64 => s.e64.carryLen.toNat < 32
  | .hash32 _ _ => True
  | .hash64 _ _ => True

/-- A state whose engines, records and `pc` have moved on. -/
def State.moved (s : State) (a : E32) (b : E64) (l : List OutRecord) (n : Nat) : State :=
  { s with e32 := a, e64 := b, out := s.out ++ l, pc := s.pc + BitVec.ofNat 32 n }

@[simp] theorem moved_e32 (s : State) (a : E32) (b : E64) (l : List OutRecord) (n : Nat) : (s.moved a b l n).e32 = a := (rfl)
@[simp] theorem moved_e64 (s : State) (a : E32) (b : E64) (l : List OutRecord) (n : Nat) : (s.moved a b l n).e64 = b := (rfl)
@[simp] theorem moved_pc (s : State) (a : E32) (b : E64) (l : List OutRecord) (n : Nat) :
    (s.moved a b l n).pc = s.pc + BitVec.ofNat 32 n := (rfl)
@[simp] theorem moved_cs (s : State) (a : E32) (b : E64) (l : List OutRecord) (n : Nat) : (s.moved a b l n).cs = s.cs := (rfl)
@[simp] theorem moved_out (s : State) (a : E32) (b : E64) (l : List OutRecord) (n : Nat) :
    (s.moved a b l n).out = s.out ++ l := (rfl)
@[simp] theorem moved_status (s : State) (a : E32) (b : E64) (l : List OutRecord) (n : Nat) :
    (s.moved a b l n).status = s.status := (rfl)
@[simp] theorem moved_fpc (s : State) (a : E32) (b : E64) (l : List OutRecord) (n : Nat) :
    (s.moved a b l n).fpc = s.fpc := (rfl)
@[simp] theorem moved_fword (s : State) (a : E32) (b : E64) (l : List OutRecord) (n : Nat) :
    (s.moved a b l n).fword = s.fword := (rfl)

/-- The state after a command that raises no fault. -/
def State.after (i : Instr) (s : State) : State :=
  s.moved (engine32After i s.e32) (engine64After i s.e64) (recordsOf i s.e32 s.e64) i.cmdlen

/-- A command that emits nothing. -/
theorem advance_eq_moved (s : State) (a : E32) (b : E64) (i : Instr) :
    State.advance { s with e32 := a, e64 := b } i = s.moved a b [] i.cmdlen := by
  simp only [State.advance, State.moved, List.append_nil]

/-- A command that ends in `Digest(E32)`. -/
theorem finishE32_eq_moved (s : State) (e : E32) (i : Instr) :
    (s.finishE32 e).advance i = s.moved (e.reseed Config.params32) s.e64 [⟨0#1, zext 64 (digestValue32 e)⟩] i.cmdlen := rfl

/-- A command that ends in `Digest(E64)`. -/
theorem finishE64_eq_moved (s : State) (e : E64) (i : Instr) :
    (s.finishE64 e).advance i = s.moved s.e32 (e.reseed Config.params64) [⟨1#1, digestValue64 e⟩] i.cmdlen := rfl

/-- A command whose count does not overflow and whose engine satisfies rule R15 completes. -/
theorem exec_of_inRange {i : Instr} {s : State} (ho : ¬ overflows i s) (hr : inRange i s) :
    exec i s = .next (State.after i s) := by
  rw [State.after]
  cases i with
  | nop => exact congrArg Host.Outcome.next (advance_eq_moved s s.e32 s.e64 _)
  | init32 seed => rw [exec, execInit32, advance_eq_moved]; rfl
  | init64 seed => rw [exec, execInit64, advance_eq_moved]; rfl
  | update32 data =>
    have h1 : lengthOverflows s.e32 data.length = false := decide_eq_false fun h => ho (.inl ⟨data, rfl, h⟩)
    have h2 : carryLenInRange s.e32 = true := decide_eq_true hr
    rw [exec, execUpdate32, h1, h2, if_neg Bool.false_ne_true, if_pos rfl, advance_eq_moved]
    rfl
  | update64 data =>
    have h1 : lengthOverflows s.e64 data.length = false := decide_eq_false fun h => ho (.inr ⟨data, rfl, h⟩)
    have h2 : carryLenInRange s.e64 = true := decide_eq_true hr
    rw [exec, execUpdate64, h1, h2, if_neg Bool.false_ne_true, if_pos rfl, advance_eq_moved]
    rfl
  | digest32 =>
    have h2 : carryLenInRange s.e32 = true := decide_eq_true hr
    rw [exec, execDigest32, h2, if_pos rfl, finishE32_eq_moved]
    rfl
  | digest64 =>
    have h2 : carryLenInRange s.e64 = true := decide_eq_true hr
    rw [exec, execDigest64, h2, if_pos rfl, finishE64_eq_moved]
    rfl
  | hash32 seed data => rw [exec, execHash32, finishE32_eq_moved]; rfl
  | hash64 seed data => rw [exec, execHash64, finishE64_eq_moved]; rfl

/-- A command whose count overflows raises the fault (rules R112, R154). -/
theorem exec_of_overflows {i : Instr} {s : State} (ho : overflows i s) : exec i s = s.raise .lengthOverflow := by
  rcases ho with ⟨data, rfl, h⟩ | ⟨data, rfl, h⟩
  · simp only [exec, execUpdate32, lengthOverflows, h, decide_true, if_true]
  · simp only [exec, execUpdate64, lengthOverflows, h, decide_true, if_true]

/-- A command that finds rule R15 broken stops. -/
theorem exec_of_not_inRange {i : Instr} {s : State} (ho : ¬ overflows i s) (hr : ¬ inRange i s) :
    exec i s = .fault .carryLenOutOfRange := by
  cases i with
  | update32 data =>
    have h1 : lengthOverflows s.e32 data.length = false := decide_eq_false fun h => ho (.inl ⟨data, rfl, h⟩)
    have h2 : carryLenInRange s.e32 = false := decide_eq_false hr
    rw [exec, execUpdate32, h1, h2, if_neg Bool.false_ne_true, if_neg Bool.false_ne_true]
  | update64 data =>
    have h1 : lengthOverflows s.e64 data.length = false := decide_eq_false fun h => ho (.inr ⟨data, rfl, h⟩)
    have h2 : carryLenInRange s.e64 = false := decide_eq_false hr
    rw [exec, execUpdate64, h1, h2, if_neg Bool.false_ne_true, if_neg Bool.false_ne_true]
  | digest32 =>
    have h2 : ¬ s.e32.carryLen.toNat < 16 := hr
    simp [exec, execDigest32, carryLenInRange, h2]
  | digest64 =>
    have h2 : ¬ s.e64.carryLen.toNat < 32 := hr
    simp [exec, execDigest64, carryLenInRange, h2]
  | nop => exact absurd trivial hr
  | init32 _ => exact absurd trivial hr
  | init64 _ => exact absurd trivial hr
  | hash32 _ _ => exact absurd trivial hr
  | hash64 _ _ => exact absurd trivial hr

/-- Everything a command with a next state can do. -/
theorem exec_next {i : Instr} {s t : State} (h : exec i s = .next t) :
    (overflows i s ∧ ∃ w, s.cs[s.pc.toNat]? = some w ∧ t = faultState s 4#4 w) ∨
    (¬ overflows i s ∧ inRange i s ∧ ∃ a b l, t = s.moved a b l i.cmdlen ∧
      a = engine32After i s.e32 ∧ b = engine64After i s.e64 ∧ l = recordsOf i s.e32 s.e64) := by
  by_cases ho : overflows i s
  · rw [exec_of_overflows ho] at h
    obtain ⟨w, hw, ht⟩ := raise_next h
    exact .inl ⟨ho, w, hw, ht⟩
  · by_cases hr : inRange i s
    · rw [exec_of_inRange ho hr] at h
      have ht := (Host.Outcome.next.inj h).symm
      rw [State.after] at ht
      exact .inr ⟨ho, hr, _, _, _, ht, rfl, rfl, rfl⟩
    · rw [exec_of_not_inRange ho hr] at h
      cases h

/-- Only an UPDATE can overflow (rule R154). -/
theorem not_overflows {i : Instr} {s : State} (h : ∀ data, i ≠ .update32 data ∧ i ≠ .update64 data) :
    ¬ overflows i s := by
  rintro (⟨data, h', _⟩ | ⟨data, h', _⟩)
  · exact (h data).1 h'
  · exact (h data).2 h'

/-- At most one record, and none from a command that does not emit (rule R21). -/
theorem recordsOf_length (i : Instr) (e32 : E32) (e64 : E64) : (recordsOf i e32 e64).length = if i.emits then 1 else 0 := by
  cases i <;> rfl

end Sys2Proof.Machine
end

