-- ==== Sys2Proof/Laws/Engines.lean ====
section
/-! SUPPORT. Rule R18 in parts: what a command for one engine leaves of the other, and that what it does depends on its own
engine only. -/

namespace Sys2Proof.Machine
open Sys2Proof

theorem engine64After_onE32 {i : Instr} (h : i.onE32 = true) (e : E64) : engine64After i e = e := by
  cases i <;> first | (cases h; done) | rfl

theorem engine32After_onE64 {i : Instr} (h : i.onE64 = true) (e : E32) : engine32After i e = e := by
  cases i <;> first | (cases h; done) | rfl

theorem recordsOf_onE32 {i : Instr} (h : i.onE32 = true) (e : E32) (f f' : E64) :
    recordsOf i e f = recordsOf i e f' := by
  cases i <;> first | (cases h; done) | rfl

theorem recordsOf_onE64 {i : Instr} (h : i.onE64 = true) (e e' : E32) (f : E64) :
    recordsOf i e f = recordsOf i e' f := by
  cases i <;> first | (cases h; done) | rfl

theorem overflows_onE32 {i : Instr} (h : i.onE32 = true) {s s' : State} (he : s.e32 = s'.e32) :
    overflows i s ↔ overflows i s' := by
  cases i <;> first | (cases h; done) | simp [overflows, he]

theorem overflows_onE64 {i : Instr} (h : i.onE64 = true) {s s' : State} (he : s.e64 = s'.e64) :
    overflows i s ↔ overflows i s' := by
  cases i <;> first | (cases h; done) | simp [overflows, he]

theorem inRange_onE32 {i : Instr} (h : i.onE32 = true) {s s' : State} (he : s.e32 = s'.e32) :
    inRange i s ↔ inRange i s' := by
  cases i <;> first | (cases h; done) | simp [inRange, he]

theorem inRange_onE64 {i : Instr} (h : i.onE64 = true) {s s' : State} (he : s.e64 = s'.e64) :
    inRange i s ↔ inRange i s' := by
  cases i <;> first | (cases h; done) | simp [inRange, he]

theorem after_e64_onE32 {i : Instr} (h : i.onE32 = true) (s : State) : (State.after i s).e64 = s.e64 := by
  rw [State.after, moved_e64, engine64After_onE32 h]

theorem after_e32_onE64 {i : Instr} (h : i.onE64 = true) (s : State) : (State.after i s).e32 = s.e32 := by
  rw [State.after, moved_e32, engine32After_onE64 h]

end Sys2Proof.Machine
end

