-- ==== Sys2Proof/Laws/Finalize.lean ====
section
/-! SUPPORT. Laws of finalize (43_finalize.md): what the tail walks depend on. -/

namespace Sys2Proof.Machine
open Sys2Proof

/-- Two walks agree where their folds agree on the bytes walked over. -/
theorem walk_congr {α : Type} (f g : α → Nat → α) (stride n : Nat)
    (h : ∀ a p, p + stride ≤ n → f a p = g a p) (k p : Nat) (x : α) (hk : p + stride * k ≤ n) :
    walk f stride k p x = walk g stride k p x := by
  induction k generalizing p x with
  | zero => rfl
  | succ k ih =>
    rw [Nat.mul_succ] at hk
    rw [walk, walk, ih _ _ (by omega), h _ _ (by omega)]

/-- The E32 walk over `n` bytes depends on those only. -/
theorem tailWalk32_congr {b b' : List Byte} {n : Nat} (h : b.take n = b'.take n) (x : BitVec 32) :
    tailWalk32 b n x = tailWalk32 b' n x := by
  unfold tailWalk32
  rw [walk_congr (foldWord32 b) (foldWord32 b') 4 n _ _ _ _ (by omega),
    walk_congr (foldByte32 b) (foldByte32 b') 1 n _ _ _ _ (by omega)]
  · intro a p hp; rw [foldByte32, foldByte32, memRead_congr_take h p 1 hp]
  · intro a p hp; rw [foldWord32, foldWord32, memRead_congr_take h p 4 hp]

/-- The E64 walk over `n` bytes depends on those only. -/
theorem tailWalk64_congr {b b' : List Byte} {n : Nat} (h : b.take n = b'.take n) (x : BitVec 64) :
    tailWalk64 b n x = tailWalk64 b' n x := by
  have h1 : ∀ a p, p + 1 ≤ n → foldByte64 b a p = foldByte64 b' a p := by
    intro a p hp; rw [foldByte64, foldByte64, memRead_congr_take h p 1 hp]
  have h8 : ∀ a p, p + 8 ≤ n → foldWord64 b a p = foldWord64 b' a p := by
    intro a p hp; rw [foldWord64, foldWord64, memRead_congr_take h p 8 hp]
  unfold tailWalk64
  dsimp only
  rw [walk_congr _ _ 8 n h8 _ _ _ (by omega)]
  split
  · rw [walk_congr _ _ 1 n h1 _ _ _ (by omega), foldHalf64, foldHalf64, memRead_congr_take h _ 4 (by omega)]
  · rw [walk_congr _ _ 1 n h1 _ _ _ (by omega)]

/-- A 32-bit digest in its record (rule R21). -/
theorem zext_toNat (v : BitVec 32) : zext 64 v = BitVec.ofNat 64 v.toNat := by
  apply BitVec.eq_of_toNat_eq; simp [zext]

/-- The E32 walk over no bytes. -/
theorem tailWalk32_zero (buf : List Byte) (h : BitVec 32) : tailWalk32 buf 0 h = h := (rfl)

/-- The E64 walk over no bytes. -/
theorem tailWalk64_zero (buf : List Byte) (h : BitVec 64) : tailWalk64 buf 0 h = h := (rfl)

end Sys2Proof.Machine
end

