-- ==== Sys2Proof/Laws/PerInstr.lean ====
section
/-! SUPPORT. A family of statements made per instruction, about the instruction as syntax: the fields of its header word
(30_encoding.md rules R51 to R55, R65). -/

namespace Sys2Proof.Laws.HeaderFields
open Sys2Proof Sys2Proof.Machine

/-- The header of a well-formed command has `ZERO = 0`, `LEN` its payload length, and `ENG = 1` exactly when the command
selects E64. -/
def Statement (i : Instr) : Prop :=
  i.wf = true →
    headerZero i.header = 0#3 ∧ headerLen i.header = i.payload.length ∧ (headerEng i.header = 1#1 ↔ i.onE64 = true)

/-- The low 27 bits of every pattern are zero. -/
theorem pattern_low (o : Opcode) : (rowOf o).pattern.toNat % 2 ^ 27 = 0 := by cases o <;> decide

/-- The statement from bit 27 of the row's pattern. -/
theorem of_pattern {i : Instr} (he : (rowOf i.opcode).pattern.toNat / 2 ^ 27 % 2 = 1 ↔ i.onE64 = true) :
    Statement i := by
  intro hwf
  have hlen : i.payload.length ≤ 16777215 := of_decide_eq_true hwf
  have hnum := header_toNat hwf
  have hlow := pattern_low i.opcode
  have eng := headerEng_toNat i.header
  refine ⟨?_, header_len hwf, ?_⟩
  · apply BitVec.eq_of_toNat_eq
    rw [headerZero_toNat, hnum]
    show _ = 0
    omega
  · rw [← he, ← BitVec.toNat_inj, eng, hnum]
    show _ = 1 ↔ _
    omega

theorem nop : Statement .nop := of_pattern (by simp [Instr.opcode, rowOf, Instr.onE64])

theorem init32 (seed : Word64) : Statement (.init32 seed) := of_pattern (by simp [Instr.opcode, rowOf, Instr.onE64])

theorem init64 (seed : Word64) : Statement (.init64 seed) := of_pattern (by simp [Instr.opcode, rowOf, Instr.onE64])

theorem update32 (data : List Byte) : Statement (.update32 data) :=
  of_pattern (by simp [Instr.opcode, rowOf, Instr.onE64])

theorem update64 (data : List Byte) : Statement (.update64 data) :=
  of_pattern (by simp [Instr.opcode, rowOf, Instr.onE64])

theorem digest32 : Statement .digest32 := of_pattern (by simp [Instr.opcode, rowOf, Instr.onE64])

theorem digest64 : Statement .digest64 := of_pattern (by simp [Instr.opcode, rowOf, Instr.onE64])

theorem hash32 (seed : Word64) (data : List Byte) : Statement (.hash32 seed data) :=
  of_pattern (by simp [Instr.opcode, rowOf, Instr.onE64])

theorem hash64 (seed : Word64) (data : List Byte) : Statement (.hash64 seed data) :=
  of_pattern (by simp [Instr.opcode, rowOf, Instr.onE64])

end Sys2Proof.Laws.HeaderFields
end

