-- ==== Sys2Proof/Tests/Slice0.lean ====
section
/-! SUPPORT. Tests: the smoke test of WellFormed, decoding by written words, one step per command with the numbers of the
spec, and for every statement with hypotheses a witness that meets them. Expected values are the spec's own: the worked
encodings of 30_encoding.md, the worked examples of 41 to 43, the vectors of 95_test_vectors.md. -/

namespace Sys2Proof.Tests
open Sys2Proof Sys2Proof.Machine

/-! ### Helpers -/

/-- The next state of an outcome. -/
def nx : Host.Outcome State Fault Refusal → Option State
  | .next s => some s
  | .fault _ => none
  | .refused _ => none

/-- The fault of an outcome. -/
def flt : Host.Outcome State Fault Refusal → Option Fault
  | .next _ => none
  | .fault f => some f
  | .refused _ => none

theorem of_nx {o : Host.Outcome State Fault Refusal} (h : (nx o).isSome = true) : ∃ t, o = .next t := by
  cases o with
  | next s => exact ⟨s, rfl⟩
  | fault f => cases h
  | refused r => cases h

/-- The reset state with a stream. -/
def st (cs : List Word) : State := { State.reset with cs := cs }

/-- The reset state with a count and a number of live carry bytes in E32. -/
def st32 (carryLen : BitVec 5) (totalLen : Word64) : State :=
  { State.reset with e32 := { State.reset.e32 with carryLen := carryLen, totalLen := totalLen } }

/-- The reset state with a count and a number of live carry bytes in E64. -/
def st64 (carryLen : BitVec 6) (totalLen : Word64) : State :=
  { State.reset with e64 := { State.reset.e64 with carryLen := carryLen, totalLen := totalLen } }

/-- The bytes 0, 1, ..., `n - 1`. -/
def ramp (n : Nat) : List Byte := (List.range n).map (BitVec.ofNat 8)

/-- The ASCII bytes of "abcd". -/
def abcd : List Byte := [0x61#8, 0x62#8, 0x63#8, 0x64#8]

/-- A state with `STATUS` as given. -/
def withStatus (s : State) (status : Word) : State := { s with status := status }

/-! ### WellFormed: a payload longer than `LEN_MAX` is refused, one of `LEN_MAX` bytes is not (rule R55) -/

theorem test_wf_refuses_update32 : Instr.wf (.update32 (List.replicate 16777216 0#8)) = false := by
  rw [Instr.wf, Instr.payload, List.length_replicate]; decide

theorem test_wf_refuses_update64 : Instr.wf (.update64 (List.replicate 16777216 0#8)) = false := by
  rw [Instr.wf, Instr.payload, List.length_replicate]; decide

theorem test_wf_refuses_hash32 : Instr.wf (.hash32 0#64 (List.replicate 16777216 0#8)) = false := by
  rw [Instr.wf, Instr.payload, List.length_replicate]; decide

theorem test_wf_refuses_hash64 : Instr.wf (.hash64 0#64 (List.replicate 16777216 0#8)) = false := by
  rw [Instr.wf, Instr.payload, List.length_replicate]; decide

theorem test_wf_takes_lenMax : Instr.wf (.update32 (List.replicate 16777215 0#8)) = true := by
  rw [Instr.wf, Instr.payload, List.length_replicate]; decide

/-! ### Decoding by written words (30_encoding.md, the worked encodings after rule R65) -/

theorem test_decode_nop : decode 0b0000_0_000_000000000000000000000000#32 [] = .ok .nop := by decide

theorem test_decode_init32 : decode 0b0001_0_000_000000000000000000000000#32 [0x0000ABCD#32, 0x00000000#32] =
    .ok (.init32 0xABCD#64) := by decide

theorem test_decode_init64 : decode 0b0001_1_000_000000000000000000000000#32 [0x89ABCDEF#32, 0x01234567#32] =
    .ok (.init64 0x0123456789ABCDEF#64) := by decide

theorem test_decode_update32 : decode 0b0010_0_000_000000000000000000000011#32 [0x00636261#32] =
    .ok (.update32 [0x61#8, 0x62#8, 0x63#8]) := by decide

theorem test_decode_update64 : decode 0b0010_1_000_000000000000000000000101#32 [0x64636261#32, 0x00000065#32] =
    .ok (.update64 [0x61#8, 0x62#8, 0x63#8, 0x64#8, 0x65#8]) := by decide

theorem test_decode_digest32 : decode 0b0011_0_000_000000000000000000000000#32 [] = .ok .digest32 := by decide

theorem test_decode_digest64 : decode 0b0011_1_000_000000000000000000000000#32 [] = .ok .digest64 := by decide

theorem test_decode_hash32 : decode 0b0100_0_000_000000000000000000000100#32 [0x0000ABCD#32, 0#32, 0x64636261#32] =
    .ok (.hash32 0xABCD#64 abcd) := by decide

theorem test_decode_hash64 : decode 0b0100_1_000_000000000000000000000011#32 [0#32, 0#32, 0x00636261#32] =
    .ok (.hash64 0#64 [0x61#8, 0x62#8, 0x63#8]) := by decide

/-- The illegal headers of rule R60: reserved `OP`, `ZERO`, a NOP with `ENG` or `LEN`, INIT or DIGEST with `LEN`. -/
theorem test_decode_illegal :
    decode 0x50000000#32 [] = .error .illegalCommand ∧ decode 0xF0000000#32 [] = .error .illegalCommand ∧
    decode 0x21000000#32 [] = .error .illegalCommand ∧ decode 0x08000000#32 [] = .error .illegalCommand ∧
    decode 0x00000001#32 [] = .error .illegalCommand ∧ decode 0x10000001#32 [0#32, 0#32] = .error .illegalCommand ∧
    decode 0x38000004#32 [0#32] = .error .illegalCommand := by decide

/-- Truncation comes before padding, and padding is tested on the last word only (rules R152, R153, R158). -/
theorem test_decode_faults :
    decode 0x20000005#32 [0xFFFFFFFF#32] = .error .truncatedCommand ∧
    decode 0x20000005#32 [0xFFFFFFFF#32, 0x000001FF#32] = .error .nonzeroPad ∧
    decode 0x20000005#32 [0xFFFFFFFF#32, 0x000000FF#32] =
      .ok (.update32 [0xFF#8, 0xFF#8, 0xFF#8, 0xFF#8, 0xFF#8]) := by decide

/-- A written encoding (30_encoding.md, after rule R65). -/
theorem test_encode_hash32 : encode (.hash32 0#64 [0x68#8, 0x65#8, 0x69#8, 0xC3#8, 0xA5#8]) =
    [0x40000005#32, 0x00000000#32, 0x00000000#32, 0xC3696568#32, 0x000000A5#32] := by decide

theorem test_decodeTableWord : decodeTableWord 32 0x30000000 = some .digest32 ∧
    decodeTableWord 96 0x0123456789ABCDEF18000000 = some (.init64 0x0123456789ABCDEF#64) ∧
    decodeTableWord 32 0x20000005 = some (.update32 [0#8, 0#8, 0#8, 0#8, 0#8]) ∧
    decodeTableWord 32 0x90000000 = none := by decide

/-- `withFetchWord` on the reset state: the very next step runs the instruction. -/
theorem test_withFetchWord : (nx (step (State.reset.withFetchWord 32 0x30000000))).map (fun t => (t.out, t.pc)) =
    some ([⟨0#1, 0x02CC5D05#64⟩], 1#32) := by decide

/-! ### One step per command -/

theorem test_step_nop : (nx (step (st [0x00000000#32]))).map (fun t => (t.pc, t.status, t.out)) =
    some (1#32, 0#32, []) := by decide

/-- The seed of vector S7; the high seed word does not reach E32 (rule R91). -/
theorem test_step_init32 : (nx (step (st [0x10000000#32, 0x0000ABCD#32, 0xFFFFFFFF#32]))).map
    (fun t => (t.e32.seed, t.e32.lanes.v3, t.pc)) = some (0x0000ABCD#32, 0x0000ABCD#32, 3#32) := by decide

/-- Subtraction wraps: lane 4 of a zero seed (rule R90's table). -/
theorem test_step_init64 : (nx (step (st [0x18000000#32, 0#32, 0#32]))).map (fun t => (t.e64.lanes.v4, t.pc)) =
    some (0x61C8864E7A143579#64, 3#32) := by decide

/-- Four bytes are only buffered (trace of vector S1). -/
theorem test_step_update32_buffers : (nx (step (st [0x20000004#32, 0x64636261#32]))).map
    (fun t => (t.e32.carryLen, t.e32.carry.toList.take 4, t.e32.totalLen)) = some (4#5, abcd, 4#64) := by decide

/-- A whole block is mixed at once (the example of rule R101). -/
theorem test_step_update32_mixes :
    (nx (step (st [0x20000010#32, 0x03020100#32, 0x07060504#32, 0x0B0A0908#32, 0x0F0E0D0C#32]))).map
      (fun t => (t.e32.lanes, t.e32.carryLen)) =
    some (⟨0xF817BCCB#32, 0x0222719B#32, 0xD4B0C0A4#32, 0xDEBB7574#32⟩, 0#5) := by decide

/-- The carry is filled, mixed and emptied, and the rest kept (rule R103, the lanes of the example of rule R101). -/
theorem test_exec_update64_fills :
    (nx (exec (.update64 ((ramp 33).drop 5))
      { State.reset with e64 := State.reset.e64.update Config.params64 (ramp 5) })).map
        (fun t => (t.e64.lanes, t.e64.carryLen, t.e64.carry.toList.take 1)) =
    some (⟨0xF4B53B57406B5E99#64, 0xC3D34B511FC32561#64, 0xCB26C007C8A1553F#64, 0x9A44D001A7F91C07#64⟩, 1#6,
      [0x20#8]) := by decide +kernel

/-- `LENGTH_OVERFLOW` at exactly `2^64` (rule R154). -/
theorem test_exec_update64_overflows :
    (nx (exec (.update64 [0#8]) { st64 0#6 0xFFFFFFFFFFFFFFFF#64 with cs := [0x28000001#32, 0#32] })).map
      (fun t => (t.status, t.fpc, t.fword, t.e64.totalLen)) =
    some (0x42#32, 0#32, 0x28000001#32, 0xFFFFFFFFFFFFFFFF#64) := by decide

/-- Vector S1 through UPDATE32's engine. -/
theorem test_exec_digest32 :
    (nx (exec .digest32 { State.reset with e32 := State.reset.e32.update Config.params32 abcd })).map
      (fun t => (t.out, t.e32.totalLen, t.pc)) = some ([⟨0#1, 0xA3643705#64⟩], 0#64, 1#32) := by decide

/-- Vector S5 through UPDATE64's engine. -/
theorem test_exec_digest64 :
    (nx (exec .digest64 { State.reset with e64 := State.reset.e64.update Config.params64 abcd })).map
      (fun t => (t.out, t.e64.lanes, t.pc)) =
    some ([⟨1#1, 0xDE0327B0D25D92CC#64⟩], State.reset.e64.lanes, 1#32) := by decide

/-- Vector S7. -/
theorem test_step_hash32 : (nx (step (st [0x40000004#32, 0x0000ABCD#32, 0#32, 0x64636261#32]))).map
    (fun t => (t.out, t.pc)) = some ([⟨0#1, 0xCDA8FAE4#64⟩], 4#32) := by decide

/-- Vector S8. -/
theorem test_step_hash64 : (nx (step (st [0x48000004#32, 0x0000ABCD#32, 0#32, 0x64636261#32]))).map
    (fun t => (t.out, t.e64.seed, t.pc)) = some ([⟨1#1, 0xE29F70F8B8C96DF7#64⟩], 0xABCD#64, 4#32) := by decide

/-! ### Faults and the end of a run -/

theorem test_step_illegal : (nx (step (st [0x50000000#32]))).map (fun t => (t.status, t.fpc, t.fword, t.pc)) =
    some (0x12#32, 0#32, 0x50000000#32, 0#32) := by decide

theorem test_step_truncated : (nx (step (st [0x10000000#32]))).map (fun t => (t.status, t.fword)) =
    some (0x22#32, 0x10000000#32) := by decide

theorem test_step_nonzero_pad : (nx (step (st [0x20000003#32, 0x01636261#32]))).map (fun t => (t.status, t.fword)) =
    some (0x32#32, 0x20000003#32) := by decide

theorem test_step_end : (nx (step State.reset)).map (fun t => (t.status, t.pc)) = some (0x01#32, 0#32) := by decide

theorem test_step_stops : flt (step (withStatus State.reset 0x01#32)) = some .runDone ∧
    flt (step (withStatus State.reset 0x12#32)) = some .runFaulted ∧
    flt (step (withStatus State.reset 0x03#32)) = some .modeNeverProduced ∧
    flt (step { State.reset with pc := 1#32 }) = some .outsideStream ∧
    flt (exec .digest32 (st32 16#5 16#64)) = some .carryLenOutOfRange := by decide

/-! ### Witnesses: every statement with hypotheses has a state and operands that meet them -/

theorem test_witness_DecodeOfEncode : (Instr.hash32 0xABCD#64 abcd).wf = true := by decide

theorem test_witness_EncodeOfDecode : decode 0x20000003#32 [0x00636261#32, 0x7#32] =
    .ok (.update32 [0x61#8, 0x62#8, 0x63#8]) := by decide

theorem test_witness_OpcodeRows : rowOf .update32 ∈ opcodeRows ∧ (rowOf .update32).selects 0x20FFFFFF#32 = true := by
  decide

/-- Both seed formats. -/
theorem test_witness_SeedOperand :
    (decode 0x18000000#32 [0x89ABCDEF#32, 0x01234567#32] = .ok (.init64 0x0123456789ABCDEF#64) ∧
      headerOp 0x18000000#32 = 1#4) ∧
    (decode 0x40000000#32 [0xFFFFFFFF#32, 0x80000000#32] = .ok (.hash32 0x80000000FFFFFFFF#64 []) ∧
      headerOp 0x40000000#32 = 4#4) := by decide

/-- Each clause, for both payload formats: a command that decodes with and without padding, and one with a padding bit. -/
theorem test_witness_PayloadOperand :
    (¬ illegalHeader 0x20000005#32 ∧ headerOp 0x20000005#32 = 2#4 ∧ headerLen 0x20000005#32 % 4 ≠ 0 ∧
      decode 0x20000005#32 [0x03020100#32, 0x00000004#32] = .ok (.update32 (ramp 5))) ∧
    (¬ illegalHeader 0x48000004#32 ∧ headerOp 0x48000004#32 = 4#4 ∧ headerLen 0x48000004#32 % 4 = 0 ∧
      decode 0x48000004#32 [0#32, 0#32, 0x03020100#32] = .ok (.hash64 0#64 (ramp 4))) ∧
    (0x00000100#32).toNat / 2 ^ (8 * (headerLen 0x20000005#32 % 4)) ≠ 0 := by
  refine ⟨⟨?_, by decide⟩, ⟨?_, by decide⟩, by decide⟩
  · rw [illegal_iff]; decide
  · rw [illegal_iff]; decide

theorem test_witness_StepRuns : statusMode (st (encode (.update32 abcd) ++ [0#32])).status = 0#2 ∧
    (Instr.update32 abcd).wf = true ∧
    (st (encode (.update32 abcd) ++ [0#32])).cs.drop 0 = encode (.update32 abcd) ++ [0#32] ∧
    decode 0x20000004#32 [0x64636261#32, 0#32] = .ok (.update32 abcd) := by decide

/-- Each clause of rule R60, and a header that is legal. -/
theorem test_witness_Illegal : statusMode (st [0x50000000#32]).status = 0#2 ∧
    illegalHeader 0x50000000#32 ∧ illegalHeader 0x21000000#32 ∧ illegalHeader 0x08000000#32 ∧
    illegalHeader 0x10000001#32 ∧ illegalHeader 0x30FFFFFF#32 ∧ ¬ illegalHeader 0x4FFFFFFF#32 = False ∧
    ¬ illegalHeader 0x48FFFFFF#32 := by
  simp only [illegal_iff]
  decide

/-- A command one word short, one that just fits, one of one word. -/
theorem test_witness_Truncated :
    (¬ illegalHeader 0x10000000#32 ∧ (st [0x10000000#32, 0#32]).cs.length < 0 + lengthByOp 0x10000000#32) ∧
    (st [0x10000000#32, 0#32, 0#32]).cs.length = 0 + lengthByOp 0x10000000#32 ∧
    (headerOp 0x28000000#32 = 2#4 ∧ headerLen 0x28000000#32 = 0 ∧ ¬ illegalHeader 0x28000000#32) ∧
    (headerOp 0x38000000#32 = 3#4 ∧ ¬ illegalHeader 0x38000000#32) := by
  simp only [illegal_iff]
  decide

theorem test_witness_NonzeroPad : ¬ illegalHeader 0x40000003#32 ∧
    (st [0x40000003#32, 0#32, 0#32, 0x01000000#32]).cs.length = 0 + lengthByOp 0x40000003#32 ∧
    paddingBits 0x40000003#32 [0x40000003#32, 0#32, 0#32, 0x01000000#32] ≠ 0 ∧
    paddingBits 0x40000003#32 [0x40000003#32, 0#32, 0#32, 0x00FFFFFF#32] = 0 := by
  simp only [illegal_iff]
  decide

/-- Exactly `2^64` on each engine, and one below it. -/
theorem test_witness_LengthOverflow :
    { st32 0#5 0xFFFFFFFFFFFFFFFF#64 with cs := [0x20000001#32, 0#32] }.cs[0]? = some 0x20000001#32 ∧
    2 ^ 64 ≤ (st32 0#5 0xFFFFFFFFFFFFFFFF#64).e32.totalLen.toNat + [0#8].length ∧
    2 ^ 64 ≤ (st64 0#6 0xFFFFFFFFFFFFFFFF#64).e64.totalLen.toNat + [0#8].length ∧
    (nx (exec (.update32 [0#8]) (st32 0#5 0xFFFFFFFFFFFFFFFE#64))).isSome = true := by decide

theorem test_witness_EndOfStream : statusMode State.reset.status = 0#2 ∧
    State.reset.pc.toNat = State.reset.cs.length := by decide

theorem test_witness_OnlyHardwareReset : statusMode (withStatus State.reset 0x12#32).status = 2#2 ∧
    (nx (hostEvent (.hardwareReset [] (Vector.replicate 16 0#8) (Vector.replicate 32 0#8))
      (withStatus State.reset 0x12#32))).isSome = true := by decide

theorem test_witness_FaultsArePrecise : (nx (step (st [0x50000000#32]))).map (fun t => statusMode t.status) =
    some 2#2 := by decide

/-- The last byte of the carry and the last byte of the count. -/
theorem test_witness_Update32Absorbs : (st32 15#5 0xFFFFFFFFFFFFFFFE#64).e32.carryLen.toNat < 16 ∧
    (st32 15#5 0xFFFFFFFFFFFFFFFE#64).e32.totalLen.toNat + [0x61#8].length < 2 ^ 64 := by decide

theorem test_witness_Update64Absorbs : (st64 31#6 0xFFFFFFFFFFFFFFFE#64).e64.carryLen.toNat < 32 ∧
    (st64 31#6 0xFFFFFFFFFFFFFFFE#64).e64.totalLen.toNat + [0x61#8].length < 2 ^ 64 := by decide

/-- Both arms, with bytes before and behind the stretch written. -/
theorem test_witness_UpdateKeeps : notWrittenByUpdate (st32 3#5 3#64).e32 4 2 ∧
    notWrittenByUpdate (st32 3#5 3#64).e32 4 7 ∧ notWrittenByUpdate (st32 3#5 3#64).e32 14 2 ∧
    notWrittenByUpdate (st64 0#6 0#64).e64 33 1 ∧
    (nx (exec (.update32 (ramp 14)) (st32 3#5 3#64))).isSome = true ∧
    (nx (exec (.update64 (ramp 33)) (st64 0#6 0#64))).isSome = true := by
  unfold notWrittenByUpdate
  decide

theorem test_witness_Digest32Emits : (st32 15#5 31#64).e32.carryLen.toNat < 16 := by decide

theorem test_witness_Digest64Emits : (st64 31#6 63#64).e64.carryLen.toNat < 32 := by decide

theorem test_witness_HashEmits : (ramp 40).length < 2 ^ 64 ∧ 40 % 16 ≤ 8 := by decide

theorem test_witness_ZeroLength : (st32 15#5 15#64).e32.carryLen.toNat < 16 ∧
    (st64 31#6 31#64).e64.carryLen.toNat < 32 := by decide

/-- Two ways of cutting seventeen bytes, one of them with an empty piece. -/
theorem test_witness_Chunking : [ramp 15, [], [15#8, 16#8]].flatten = [[0#8], (ramp 17).drop 1].flatten ∧
    [ramp 15, [], [15#8, 16#8]].flatten.length < 2 ^ 64 := by decide

/-- All three paths: buffering, straight from the input, through the carry. -/
theorem test_witness_PhaseMachine : (st32 15#5 15#64).e32.carryLen.toNat < 16 ∧
    updatePath (st32 3#5 3#64).e32 4 = [.idle, .count, .append] ∧
    updatePath (st32 0#5 0#64).e32 33 = [.idle, .count, .mixd, .mixd, .stash] ∧
    updatePath (st64 5#6 5#64).e64 60 = [.idle, .count, .fill, .mixc, .mixd, .stash] := by decide

/-- The blocks agree on quarter 2 only, the lanes on lane 2 only. -/
theorem test_witness_Lanes : (((ramp 16).drop (0 + 4)).take 4 = ((0#8 :: ramp 16).drop (1 + 4)).take 4) ∧
    (⟨1#32, 2#32, 3#32, 4#32⟩ : Lanes 32).v2 = (⟨5#32, 2#32, 7#32, 8#32⟩ : Lanes 32).v2 := by decide

/-- A fresh engine has absorbed nothing, and one that took seventeen bytes has absorbed them. -/
theorem test_witness_Absorbed : Absorbed Config.params32 State.reset.e32 0#32 [] ∧
    Absorbed Config.params64 State.reset.e64 0#64 [] ∧
    Absorbed Config.params32 (State.reset.e32.update Config.params32 (ramp 17)) 0#32 (ramp 17) := by
  refine ⟨?_, ?_, ?_⟩ <;> constructor <;> decide

theorem test_witness_Reusable : (ramp 17).length < 2 ^ 64 ∧ (ramp 33).length < 2 ^ 64 := by decide

theorem test_witness_OneShot : (ramp 33).length ≤ 16777215 ∧
    [ramp 15, [], ramp 20].flatten.length ≤ 16777215 := by decide

theorem test_witness_Avalanche : avalanche32 0x75275207#32 = avalanche32 0x75275207#32 ∧
    avalanche64 0x00E08A5499BA7DCB#64 = avalanche64 0x00E08A5499BA7DCB#64 := by decide

theorem test_witness_Rotate : 0 < 13 ∧ 13 < 32 ∧ 0 < 63 ∧ 63 < 64 := by decide

/-- The three arms of the halved rotation and shift: amounts 31, 32, 33. -/
theorem test_witness_WideHelper :
    (rotl64H (Halves.ofWord64 0x0123456789ABCDEF#64) 31).toWord64 = rotl 0x0123456789ABCDEF#64 31 ∧
    (rotl64H (Halves.ofWord64 0x0123456789ABCDEF#64) 32).toWord64 = 0x89ABCDEF01234567#64 ∧
    (shr64H (Halves.ofWord64 0x0123456789ABCDEF#64) 33).toWord64 = shr 0x0123456789ABCDEF#64 33 := by decide

theorem test_witness_MemRead : 8 + 8 ≤ (ramp 16).length ∧ 8 * 8 ≤ 64 ∧ 12 + 4 ≤ (ramp 16).length ∧
    15 + 1 ≤ (ramp 16).length := by decide

theorem test_witness_Inv_reset : State.reset.Inv := by constructor <;> decide

/-- An invariant state in each of the three modes with a command behind it. -/
theorem test_witness_Inv_running : (st [0x30000000#32, 0x00000000#32]).Inv ∧
    (∃ t, step (st [0x30000000#32, 0x00000000#32]) = .next t) ∧
    (withStatus State.reset 0x01#32).Inv ∧
    State.Inv { st [0x50000000#32] with status := 0x12#32, fword := 0x50000000#32 } := by
  refine ⟨?_, of_nx (by decide), ?_, ?_⟩
  all_goals constructor <;> decide

/-- Every event has a next state from some invariant state. -/
theorem test_witness_HostEvents :
    (∃ t, hostEvent (.launch [0x00000000#32]) (withStatus State.reset 0x01#32) = .next t) ∧
    (∃ t, hostEvent .step State.reset = .next t) ∧
    (∃ t, hostEvent (.hardwareReset [] (Vector.replicate 16 0xFF#8) (Vector.replicate 32 0xFF#8))
      (withStatus State.reset 0x12#32) = .next t) :=
  ⟨of_nx (by decide), of_nx (by decide), of_nx (by decide)⟩

theorem test_witness_HardwareReset : [0x30000000#32].length ≤ 4294967295 := by decide

theorem test_witness_Launch : statusMode (withStatus State.reset 0x01#32).status = 1#2 ∧
    statusMode State.reset.status ≠ 1#2 := by decide

theorem test_witness_Frame : (∃ t, step (st [0x30000000#32]) = .next t) ∧
    (∃ t, exec (.update32 abcd) State.reset = .next t) ∧ Instr.emits (.update32 abcd) = false ∧
    Instr.constructs (.update32 abcd) = false ∧ (∃ t, exec .digest64 State.reset = .next t) ∧
    Instr.constructs .digest64 = false :=
  ⟨of_nx (by decide), of_nx (by decide), rfl, rfl, of_nx (by decide), rfl⟩

/-- A step that leaves the block running, and steps that stop it. -/
theorem test_witness_PcMoves :
    (nx (step (st [0x18000000#32, 0#32, 0#32]))).map (fun t => (statusMode t.status, t.pc)) = some (0#2, 3#32) ∧
    (nx (step State.reset)).map (fun t => (statusMode t.status, t.pc)) = some (1#2, 0#32) ∧
    (nx (step (st [0x50000000#32]))).map (fun t => (statusMode t.status, t.pc)) = some (2#2, 0#32) := by decide

theorem test_witness_EveryRunEnds : (st [0x00000000#32]).Inv ∧ statusMode (st [0x00000000#32]).status = 0#2 := by
  refine ⟨?_, by decide⟩
  constructor <;> decide

theorem test_witness_NoLengthOverflow : ∃ t, runSteps 2
    (State.reset.hardwareReset [0x00000000#32] (Vector.replicate 16 0xFF#8) (Vector.replicate 32 0xFF#8)) = .next t :=
  of_nx (by decide)

/-- The stream of NOP, DIGEST32 in a launch state. -/
theorem test_witness_StreamsRun : (st [0x00000000#32, 0x30000000#32]).Launchable ∧
    (∀ i ∈ [Instr.nop, Instr.digest32], i.wf = true) ∧
    (st [0x00000000#32, 0x30000000#32]).cs = [Instr.nop, Instr.digest32].flatMap encode ∧
    (nx (execAll [.nop, .digest32] (st [0x00000000#32, 0x30000000#32]))).map (fun t => t.status) = some 0#32 := by
  refine ⟨?_, by decide, by decide, by decide⟩
  constructor <;> decide

/-- Two states that differ in a dead carry byte only. -/
theorem test_witness_DeadCarry :
    State.live { State.reset with e32 := { State.reset.e32 with carry := Vector.replicate 16 0xFF#8 } } =
      State.live State.reset ∧
    { State.reset with e32 := { State.reset.e32 with carry := Vector.replicate 16 0xFF#8 } } ≠ State.reset := by decide

theorem test_witness_IgnoreOther : Instr.onE32 (.hash32 0#64 abcd) = true ∧ Instr.onE64 .digest64 = true := by decide

/-- Both orders of CommandsOfDifferentEnginesExchange: E32 first, and E64 first. -/
theorem test_witness_Exchange :
    (∃ t u, (Instr.onE32 .digest32 = true ∧ Instr.onE64 .digest64 = true) ∧ statusMode State.reset.status = 0#2 ∧
      exec .digest32 State.reset = .next t ∧ t.status = State.reset.status ∧
      exec .digest64 t = .next u ∧ u.status = t.status) ∧
    (∃ t u, (Instr.onE64 .digest64 = true ∧ Instr.onE32 .digest32 = true) ∧ statusMode State.reset.status = 0#2 ∧
      exec .digest64 State.reset = .next t ∧ t.status = State.reset.status ∧
      exec .digest32 t = .next u ∧ u.status = t.status) := by
  have r32 : inRange .digest32 State.reset := show State.reset.e32.carryLen.toNat < 16 by decide
  have r64 : inRange .digest64 State.reset := show State.reset.e64.carryLen.toNat < 32 by decide
  refine ⟨⟨_, _, by decide, by decide, exec_of_inRange (not_overflows (by simp)) r32, by rw [State.after, moved_status],
      exec_of_inRange (not_overflows (by simp)) ?_, by rw [State.after, moved_status]⟩,
    ⟨_, _, by decide, by decide, exec_of_inRange (not_overflows (by simp)) r64, by rw [State.after, moved_status],
      exec_of_inRange (not_overflows (by simp)) ?_, by rw [State.after, moved_status]⟩⟩
  · exact (inRange_onE64 (i := .digest64) rfl (after_e64_onE32 rfl State.reset)).2 r64
  · exact (inRange_onE32 (i := .digest32) rfl (after_e32_onE64 rfl State.reset)).2 r32

theorem test_witness_LongUpdate : 16777215 < (List.replicate 16777216 0#8 : List Byte).length ∧
    State.reset.e32.carryLen.toNat < 16 ∧ State.reset.e64.carryLen.toNat < 32 ∧
    State.reset.e32.totalLen.toNat + (List.replicate 16777216 0#8 : List Byte).length < 2 ^ 64 ∧
    State.reset.e64.totalLen.toNat + (List.replicate 16777216 0#8 : List Byte).length < 2 ^ 64 := by
  rw [List.length_replicate]
  decide

end Sys2Proof.Tests
end

section
/-! PROOFS. The invariants of the machine (10_state.md rules R15, R19, R22, R23): each of the three things a step can do
(`step_next`) keeps them, and so does every action of the host (70_reset_and_hazards.md rules R170, R171). -/

namespace Sys2Proof.Machine
open Sys2Proof

/-! ### What a command leaves of `carryLen`, `pc` and `STATUS` -/

/-- Every command keeps rule R15 of E32. -/
theorem engine32After_carryLen_lt (i : Instr) {e : E32} (h : e.carryLen.toNat < 16) :
    (engine32After i e).carryLen.toNat < 16 := by
  cases i with
  | init32 seed => rw [engine32After, reset_carryLen]; decide
  | update32 data => exact update_carryLen_lt _ e data (by decide) h
  | digest32 => rw [engine32After, reseed_carryLen]; decide
  | hash32 seed data => rw [engine32After, reseed_carryLen]; decide
  | nop | init64 _ | update64 _ | digest64 | hash64 _ _ => exact h

/-- Every command keeps rule R15 of E64. -/
theorem engine64After_carryLen_lt (i : Instr) {e : E64} (h : e.carryLen.toNat < 32) :
    (engine64After i e).carryLen.toNat < 32 := by
  cases i with
  | init64 seed => rw [engine64After, reset_carryLen]; decide
  | update64 data => exact update_carryLen_lt _ e data (by decide) h
  | digest64 => rw [engine64After, reseed_carryLen]; decide
  | hash64 seed data => rw [engine64After, reseed_carryLen]; decide
  | nop | init32 _ | update32 _ | digest32 | hash32 _ _ => exact h

/-- Moving past a decoded command does not wrap and stays inside the stream (rules R19, R59): the stream has at most
`2^32 - 1` words. -/
theorem pc_past_decoded {s : State} {w : Word} {rest : List Word} {i : Instr} (hm : Memory.wf s = true)
    (hd : s.cs.drop s.pc.toNat = w :: rest) (hi : decode w rest = .ok i) :
    (s.pc + BitVec.ofNat 32 i.cmdlen).toNat = s.pc.toNat + i.cmdlen ∧ s.pc.toNat + i.cmdlen ≤ s.cs.length := by
  have hcs : s.cs.length ≤ 4294967295 := of_decide_eq_true hm
  have hlen := length_of_drop hd
  have hcmd := (decode_cmdlen hi).2
  rw [BitVec.toNat_add, BitVec.toNat_ofNat]
  omega

/-- From `STATUS` of a running block, fault entry leaves one of the legal values (rules R22, R155). -/
theorem legalStatus_faultStatus (c : Cause) : legalStatus (faultStatus 0x00#32 c.code) = true := by
  cases c <;> decide

/-- A legal status word in `DONE` has no cause (rule R22). -/
theorem legal_done {st : Word} (h : legalStatus st = true) (hd : statusMode st = Mode.done.code) : st = 0x01#32 := by
  simp only [legalStatus, Bool.or_eq_true, beq_iff_eq] at h
  rcases h with ((((rfl | rfl) | rfl) | rfl) | rfl) | rfl <;> revert hd <;> decide

/-! ### The three things a step can do keep the invariants -/

section running
variable {s : State} (h : s.Inv) (h0 : statusMode s.status = Mode.run.code)
include h h0

theorem endRun_inv (he : s.pc.toNat = s.cs.length) : s.endRun.Inv where
  carry32 := h.carry32
  carry64 := h.carry64
  memory := h.memory
  pcInStream := h.pcInStream
  status := by rw [endRun_status, legal_run h.status h0]; decide
  doneAtEnd := fun _ => he
  faultRecorded := fun hf => absurd hf (by rw [endRun_status, statusMode_setStatusMode]; decide)

theorem faultState_inv {w : Word} (hw : s.cs[s.pc.toNat]? = some w) (c : Cause) : (faultState s c.code w).Inv where
  carry32 := h.carry32
  carry64 := h.carry64
  memory := h.memory
  pcInStream := h.pcInStream
  status := by rw [faultState_status, legal_run h.status h0]; exact legalStatus_faultStatus c
  doneAtEnd := fun hd => absurd hd (by rw [faultState_status, faultStatus_mode]; decide)
  faultRecorded := fun _ => ⟨rfl, hw⟩

theorem moved_inv {a : E32} {b : E64} (l : List OutRecord) {n : Nat} (ha : a.carryLen.toNat < 16)
    (hb : b.carryLen.toNat < 32) (hpc : (s.pc + BitVec.ofNat 32 n).toNat ≤ s.cs.length) : (s.moved a b l n).Inv where
  carry32 := ha
  carry64 := hb
  memory := h.memory
  pcInStream := hpc
  status := h.status
  doneAtEnd := fun hd => absurd (h0.symm.trans hd) (by decide)
  faultRecorded := fun hf => absurd (h0.symm.trans hf) (by decide)

/-- A command keeps the invariants where `pc` stays inside the stream, whether it completes or raises
`LENGTH_OVERFLOW`. -/
theorem exec_inv {i : Instr} {t : State} (hpc : (s.pc + BitVec.ofNat 32 i.cmdlen).toNat ≤ s.cs.length)
    (he : exec i s = .next t) : t.Inv := by
  obtain ⟨_, w, hw, rfl⟩ | ⟨_, _, a, b, l, rfl, ha, hb, _⟩ := exec_next he
  · exact faultState_inv h h0 hw .lengthOverflow
  · exact moved_inv h h0 l (ha ▸ engine32After_carryLen_lt i h.carry32) (hb ▸ engine64After_carryLen_lt i h.carry64) hpc

end running

/-- Settles O42, by the three things a step can do. -/
theorem stepKeepsTheInvariant : Obligations.StepKeepsTheInvariant := by
  intro s t h hs
  obtain ⟨h0, ⟨he, rfl⟩ | ⟨w, rest, f, hd, _, rfl⟩ | ⟨w, rest, i, hd, hi, hx⟩⟩ := step_next hs
  · exact endRun_inv h h0 he
  · exact faultState_inv h h0 (getElem?_of_drop hd) _
  · obtain ⟨hnat, hle⟩ := pc_past_decoded h.memory hd hi
    exact exec_inv h h0 (hnat ▸ hle) hx

/-! ### Hardware reset and launch -/

/-- Settles O41: each invariant is a comparison of the tabulated numbers. -/
theorem resetMeetsTheInvariant : Obligations.ResetMeetsTheInvariant where
  carry32 := by decide
  carry64 := by decide
  memory := wf_reset
  pcInStream := by decide
  status := by decide
  doneAtEnd := by decide
  faultRecorded := by decide

/-- A launch state meets the invariants (rule R29). -/
theorem State.Launchable.inv {s : State} (h : s.Launchable) : s.Inv where
  carry32 := h.carry32
  carry64 := h.carry64
  memory := h.memory
  pcInStream := by rw [h.pcZero]; exact Nat.zero_le _
  status := by rw [h.running]; decide
  doneAtEnd := fun hd => absurd hd (by rw [h.running]; decide)
  faultRecorded := fun hf => absurd hf (by rw [h.running]; decide)

/-- Hardware reset with a stream of legal length leaves a launch state, whatever the state before (rules R29, R170). -/
theorem hardwareReset_launchable (s : State) {cs : List Word} (a : Vector Byte 16) (b : Vector Byte 32)
    (hcs : cs.length ≤ Config.cslenMax) : (s.hardwareReset cs a b).Launchable where
  carry32 := by rw [State.hardwareReset, reset_carryLen]; decide
  carry64 := by rw [State.hardwareReset, reset_carryLen]; decide
  memory := wf_hardwareReset s cs a b hcs
  running := rfl
  pcZero := rfl

/-- Launch from `DONE` with a stream of legal length leaves a launch state (rules R29, R171): the one legal `STATUS` in
`DONE` has no cause. -/
theorem launch_launchable {s : State} {cs : List Word} (h : s.Inv) (hd : statusMode s.status = Mode.done.code)
    (hcs : cs.length ≤ Config.cslenMax) : (s.launch cs).Launchable where
  carry32 := h.carry32
  carry64 := h.carry64
  memory := wf_launch s cs hcs
  running := by rw [launch_status, legal_done h.status hd]; decide
  pcZero := rfl

/-- Everything a hardware reset that is not refused does (rules R8, R170). -/
theorem hostEvent_hardwareReset_next {s t : State} {cs : List Word} {a : Vector Byte 16} {b : Vector Byte 32}
    (h : hostEvent (.hardwareReset cs a b) s = .next t) :
    cs.length ≤ Config.cslenMax ∧ t = s.hardwareReset cs a b := by
  by_cases hcs : cs.length ≤ Config.cslenMax
  · rw [hostEvent, if_pos hcs] at h
    exact ⟨hcs, (Host.Outcome.next.inj h).symm⟩
  · rw [hostEvent, if_neg hcs] at h
    cases h

/-- Everything a launch that is not refused does (rules R8, R171). -/
theorem hostEvent_launch_next {s t : State} {cs : List Word} (h : hostEvent (.launch cs) s = .next t) :
    statusMode s.status = Mode.done.code ∧ cs.length ≤ Config.cslenMax ∧ t = s.launch cs := by
  by_cases hd : statusMode s.status = Mode.done.code
  · by_cases hcs : cs.length ≤ Config.cslenMax
    · rw [hostEvent, if_pos hd, if_pos hcs] at h
      exact ⟨hd, hcs, (Host.Outcome.next.inj h).symm⟩
    · rw [hostEvent, if_pos hd, if_neg hcs] at h
      cases h
  · rw [hostEvent, if_neg hd] at h
    cases h

/-- Settles O43: a step keeps the invariants, hardware reset and launch leave a launch state. -/
theorem hostEventsKeepTheInvariant : Obligations.HostEventsKeepTheInvariant := by
  have afterReset : ∀ (s t : State) (cs : List Word) (a : Vector Byte 16) (b : Vector Byte 32),
      hostEvent (.hardwareReset cs a b) s = .next t → t.Launchable := by
    intro s t cs a b he
    obtain ⟨hcs, rfl⟩ := hostEvent_hardwareReset_next he
    exact hardwareReset_launchable s a b hcs
  have afterLaunch : ∀ (s t : State) (cs : List Word), s.Inv → hostEvent (.launch cs) s = .next t → t.Launchable := by
    intro s t cs h he
    obtain ⟨hd, hcs, rfl⟩ := hostEvent_launch_next he
    exact launch_launchable h hd hcs
  refine ⟨?_, fun s t cs a b he => ⟨(afterReset s t cs a b he).inv, afterReset s t cs a b he⟩, afterLaunch⟩
  intro ev s t h he
  cases ev with
  | step => exact stepKeepsTheInvariant s t h he
  | hardwareReset cs a b => exact (afterReset s t cs a b he).inv
  | launch cs => exact (afterLaunch s t cs h he).inv

/-- Settles O44: the lanes that `Reset` derives from seed 0 are the tabulated ones. -/
theorem resetStateIsWhatHardwareResetComputes : Obligations.ResetStateIsWhatHardwareResetComputes := by
  have lanes32 : seededLanes Config.params32 0#32 = State.reset.e32.lanes := by decide
  have lanes64 : seededLanes Config.params64 0#64 = State.reset.e64.lanes := by decide
  intro s
  rw [State.hardwareReset, Engine.reset, Engine.reset, lanes32, lanes64]
  rfl

end Sys2Proof.Machine
end

section
/-! PROOFS. Live parts (10_state.md rule R26 (a)): every operation on an engine, every command and every step takes states
with equal live parts to outcomes with equal live parts. `update_spec` gives the one hard part, the live carry bytes and
the lanes after an `Update`. -/

namespace Sys2Proof.Machine
open Sys2Proof

/-! ### Engines with equal live parts -/

section engine
variable {w bs cw : Nat} {e f : Engine w bs cw}

/-- Equal live parts, field by field. -/
theorem engine_live_eq_iff : e.live = f.live ↔
    e.seed = f.seed ∧ e.lanes = f.lanes ∧ e.liveCarry = f.liveCarry ∧ e.carryLen.toNat = f.carryLen.toNat ∧
      e.totalLen = f.totalLen := by
  simp only [Engine.live, Live.mk.injEq]

/-- `Reset` keeps no live byte, so what it leaves depends on the seed only (rule R90). -/
theorem reset_live (P : EngineParams w) (x : BitVec w) (e f : Engine w bs cw) :
    (e.reset P x).live = (f.reset P x).live := by
  simp only [engine_live_eq_iff, reset_seed, reset_lanes, reset_carryLen, reset_totalLen, Engine.liveCarry,
    BitVec.toNat_ofNat, Nat.zero_mod, List.take_zero, and_self]

/-- `Digest`'s last step depends on the seed only (rule R133). -/
theorem reseed_live (P : EngineParams w) (h : e.live = f.live) : (e.reseed P).live = (f.reseed P).live := by
  obtain ⟨hs, _⟩ := engine_live_eq_iff.mp h
  rw [reseed_eq, reseed_eq, hs, reset_live]

/-- `Ingested` determines the live part of the new engine by that of the old one (rule R103). -/
theorem Ingested.live_congr {P : EngineParams w} {e' f' : Engine w bs cw} {data : List Byte} (h : e.live = f.live)
    (he : Ingested P e e' data) (hf : Ingested P f f' data) : e'.live = f'.live := by
  obtain ⟨hseed, hlanes, hcarry, hlen, htot⟩ := engine_live_eq_iff.mp h
  refine engine_live_eq_iff.mpr ⟨?_, ?_, ?_, ?_, BitVec.eq_of_toNat_eq ?_⟩
  · rw [he.seed, hf.seed, hseed]
  · rw [he.lanes, hf.lanes, hcarry, hlen, hlanes]
  · rw [he.carry, hf.carry, hcarry, hlen]
  · rw [he.count, hf.count, hlen]
  · rw [he.total, hf.total, htot]

/-- `Update` within the count depends on the live part only (rule R26 (a)). -/
theorem update_live_congr (P : EngineParams w) (data : List Byte) (h : e.live = f.live) (hcw : bs < 2 ^ cw)
    (hc : e.carryLen.toNat < bs) (ht : e.totalLen.toNat + data.length < 2 ^ 64) :
    (e.update P data).live = (f.update P data).live := by
  obtain ⟨_, _, _, hlen, htot⟩ := engine_live_eq_iff.mp h
  exact (update_spec P e data hcw hc ht).live_congr h (update_spec P f data hcw (hlen ▸ hc) (htot ▸ ht))

/-- An `Update` of a `Reset` engine depends on seed and bytes only. -/
theorem reset_update_live (P : EngineParams w) (x : BitVec w) (data : List Byte) (e f : Engine w bs cw)
    (hbs : 0 < bs) (hcw : bs < 2 ^ cw) (hd : data.length < 2 ^ 64) :
    ((e.reset P x).update P data).live = ((f.reset P x).update P data).live := by
  refine update_live_congr P data (reset_live P x e f) hcw ?_ ?_
  · rw [reset_carryLen, BitVec.toNat_ofNat, Nat.zero_mod]; exact hbs
  · rw [reset_totalLen, BitVec.toNat_ofNat, Nat.zero_mod, Nat.zero_add]; exact hd

end engine

/-- `Digest(E32)` reads live bytes only (rules R129, R133). -/
theorem digestValue32_congr {e f : E32} (h : e.live = f.live) : digestValue32 e = digestValue32 f := by
  obtain ⟨hseed, hlanes, hcarry, hlen, htot⟩ := engine_live_eq_iff.mp h
  have habs : absorbedBlock e = absorbedBlock f := by rw [absorbedBlock, absorbedBlock, htot]
  have hstart : startValue32 e = startValue32 f := by rw [startValue32, startValue32, habs, hlanes, hseed]
  rw [Engine.liveCarry, Engine.liveCarry, ← hlen] at hcarry
  rw [digestValue32, digestValue32, hstart, htot, ← hlen, tailWalk32_congr hcarry]

/-- `Digest(E64)` reads live bytes only (rules R130, R133). -/
theorem digestValue64_congr {e f : E64} (h : e.live = f.live) : digestValue64 e = digestValue64 f := by
  obtain ⟨hseed, hlanes, hcarry, hlen, htot⟩ := engine_live_eq_iff.mp h
  have habs : absorbedBlock e = absorbedBlock f := by rw [absorbedBlock, absorbedBlock, htot]
  have hstart : startValue64 e = startValue64 f := by rw [startValue64, startValue64, habs, hlanes, hseed]
  rw [Engine.liveCarry, Engine.liveCarry, ← hlen] at hcarry
  rw [digestValue64, digestValue64, hstart, htot, ← hlen, tailWalk64_congr hcarry]

/-! ### Commands -/

/-- Equal live parts of states, field by field. -/
theorem state_live_eq_iff {s s' : State} : s.live = s'.live ↔
    s.e32.live = s'.e32.live ∧ s.e64.live = s'.e64.live ∧ s.pc = s'.pc ∧ s.cs = s'.cs ∧ s.out = s'.out ∧
      s.status = s'.status ∧ s.fpc = s'.fpc ∧ s.fword = s'.fword := by
  simp only [State.live, LiveState.mk.injEq]

section command
variable {i : Instr} {s s' : State} (h : s.live = s'.live)
include h

theorem overflows_live_congr : overflows i s ↔ overflows i s' := by
  obtain ⟨h32, h64, _⟩ := state_live_eq_iff.mp h
  obtain ⟨_, _, _, _, ht32⟩ := engine_live_eq_iff.mp h32
  obtain ⟨_, _, _, _, ht64⟩ := engine_live_eq_iff.mp h64
  rw [overflows, overflows, ht32, ht64]

theorem inRange_live_congr : inRange i s ↔ inRange i s' := by
  obtain ⟨h32, h64, _⟩ := state_live_eq_iff.mp h
  obtain ⟨_, _, _, hc32, _⟩ := engine_live_eq_iff.mp h32
  obtain ⟨_, _, _, hc64, _⟩ := engine_live_eq_iff.mp h64
  cases i <;> simp only [inRange, hc32, hc64]

/-- What a completing command leaves of E32, up to dead bytes. -/
theorem engine32After_live_congr (ho : ¬ overflows i s) (hr : inRange i s) (hp : i.payload.length < 2 ^ 64) :
    (engine32After i s.e32).live = (engine32After i s'.e32).live := by
  obtain ⟨h32, _⟩ := state_live_eq_iff.mp h
  cases i with
  | init32 seed => exact reset_live _ _ _ _
  | update32 data =>
    exact update_live_congr _ data h32 (by decide) hr (Nat.lt_of_not_le fun hle => ho (.inl ⟨data, rfl, hle⟩))
  | digest32 => exact reseed_live _ h32
  | hash32 seed data => exact reseed_live _ (reset_update_live _ _ data _ _ (by decide) (by decide) hp)
  | nop | init64 _ | update64 _ | digest64 | hash64 _ _ => exact h32

/-- What a completing command leaves of E64, up to dead bytes. -/
theorem engine64After_live_congr (ho : ¬ overflows i s) (hr : inRange i s) (hp : i.payload.length < 2 ^ 64) :
    (engine64After i s.e64).live = (engine64After i s'.e64).live := by
  obtain ⟨_, h64, _⟩ := state_live_eq_iff.mp h
  cases i with
  | init64 seed => exact reset_live _ _ _ _
  | update64 data =>
    exact update_live_congr _ data h64 (by decide) hr (Nat.lt_of_not_le fun hle => ho (.inr ⟨data, rfl, hle⟩))
  | digest64 => exact reseed_live _ h64
  | hash64 seed data => exact reseed_live _ (reset_update_live _ _ data _ _ (by decide) (by decide) hp)
  | nop | init32 _ | update32 _ | digest32 | hash32 _ _ => exact h64

/-- The records of a command show no dead byte. -/
theorem recordsOf_live_congr (hp : i.payload.length < 2 ^ 64) :
    recordsOf i s.e32 s.e64 = recordsOf i s'.e32 s'.e64 := by
  obtain ⟨h32, h64, _⟩ := state_live_eq_iff.mp h
  cases i with
  | nop | init32 _ | init64 _ | update32 _ | update64 _ => rfl
  | digest32 => rw [recordsOf, recordsOf, digestValue32_congr h32]
  | digest64 => rw [recordsOf, recordsOf, digestValue64_congr h64]
  | hash32 seed data =>
    rw [recordsOf, recordsOf, digestValue32_congr (reset_update_live _ _ data _ s'.e32 (by decide) (by decide) hp)]
  | hash64 seed data =>
    rw [recordsOf, recordsOf, digestValue64_congr (reset_update_live _ _ data _ s'.e64 (by decide) (by decide) hp)]

/-- A command that completes. -/
theorem after_live_congr (ho : ¬ overflows i s) (hr : inRange i s) (hp : i.payload.length < 2 ^ 64) :
    (State.after i s).live = (State.after i s').live := by
  obtain ⟨_, _, hpc, hcs, hout, hst, hfpc, hfw⟩ := state_live_eq_iff.mp h
  rw [State.after, State.after, state_live_eq_iff]
  refine ⟨engine32After_live_congr h ho hr hp, engine64After_live_congr h ho hr hp, ?_, hcs, ?_, hst, hfpc, hfw⟩
  · rw [moved_pc, moved_pc, hpc]
  · rw [moved_out, moved_out, hout, recordsOf_live_congr h hp]

/-- Fault entry touches no engine (rule R155). -/
theorem raise_live_congr (c : Cause) : liveOutcome (s.raise c) = liveOutcome (s'.raise c) := by
  obtain ⟨h32, h64, hpc, hcs, hout, hst, _, _⟩ := state_live_eq_iff.mp h
  cases hw : s.cs[s.pc.toNat]? with
  | none =>
    have hw' : s'.cs[s'.pc.toNat]? = none := by rw [← hcs, ← hpc, hw]
    simp only [State.raise, hw, hw']
  | some w =>
    have hw' : s'.cs[s'.pc.toNat]? = some w := by rw [← hcs, ← hpc, hw]
    rw [raise_eq hw, raise_eq hw', liveOutcome, liveOutcome, state_live_eq_iff.mpr]
    exact ⟨h32, h64, hpc, hcs, hout, congrArg (faultStatus · c.code) hst, hpc, rfl⟩

/-- A command whose payload fits the count: overflow, completion and stop agree, and so does what each leaves. -/
theorem exec_live_congr (hp : i.payload.length < 2 ^ 64) : liveOutcome (exec i s) = liveOutcome (exec i s') := by
  by_cases ho : overflows i s
  · rw [exec_of_overflows ho, exec_of_overflows ((overflows_live_congr h).mp ho), raise_live_congr h]
  · have ho' : ¬ overflows i s' := (overflows_live_congr h).not.mp ho
    by_cases hr : inRange i s
    · rw [exec_of_inRange ho hr, exec_of_inRange ho' ((inRange_live_congr h).mp hr), liveOutcome, liveOutcome,
        after_live_congr h ho hr hp]
    · rw [exec_of_not_inRange ho hr, exec_of_not_inRange ho' ((inRange_live_congr h).not.mp hr)]

/-- A step in `MODE = RUN`: the fetch and the decoder read `pc` and the stream only (rule R160). -/
theorem runningStep_live_congr : liveOutcome (runningStep s) = liveOutcome (runningStep s') := by
  obtain ⟨h32, h64, hpc, hcs, hout, hst, hfpc, hfw⟩ := state_live_eq_iff.mp h
  have hfetch : s.fetch = s'.fetch := by rw [State.fetch, State.fetch, hpc, hcs]
  rw [runningStep, runningStep, ← hfetch]
  cases s.fetch with
  | endOfStream =>
    refine congrArg Host.Outcome.next (state_live_eq_iff.mpr ⟨h32, h64, hpc, hcs, hout, ?_, hfpc, hfw⟩)
    rw [endRun_status, endRun_status, hst]
  | outside => rfl
  | words w rest =>
    cases hi : decode w rest with
    | error f => simp only [hi, raise_live_congr h]
    | ok i =>
      have hp := decode_payload_le hi
      simp only [hi]
      exact exec_live_congr h (by omega)

end command

/-- Settles O52, by the same cases for both states: the mode, the fetch, the decoder, the command. -/
theorem deadCarryBytesAreNeverObserved : Obligations.DeadCarryBytesAreNeverObserved := by
  intro s s' h
  obtain ⟨_, _, _, _, _, hst, _, _⟩ := state_live_eq_iff.mp h
  rw [step, step, sequencerStep, sequencerStep, ← hst]
  split
  · exact runningStep_live_congr h
  · rfl

end Sys2Proof.Machine
end

section
/-! PROOFS. What a command and a step leave unchanged (10_state.md rules R11, R19, R21, R23; 20_memory.md rule R40), read off
the one form of their next state: the run ends, a fault is entered, or a command completes. -/

namespace Sys2Proof.Machine
open Sys2Proof

/-! ### The state after a completed command, field by field -/

@[simp] theorem after_pc (i : Instr) (s : State) : (State.after i s).pc = s.pc + BitVec.ofNat 32 i.cmdlen := (rfl)
@[simp] theorem after_cs (i : Instr) (s : State) : (State.after i s).cs = s.cs := (rfl)
@[simp] theorem after_out (i : Instr) (s : State) : (State.after i s).out = s.out ++ recordsOf i s.e32 s.e64 := (rfl)
@[simp] theorem after_status (i : Instr) (s : State) : (State.after i s).status = s.status := (rfl)
@[simp] theorem after_fpc (i : Instr) (s : State) : (State.after i s).fpc = s.fpc := (rfl)
@[simp] theorem after_fword (i : Instr) (s : State) : (State.after i s).fword = s.fword := (rfl)

/-- A command with a next state enters the fault of rule R154 or completes. -/
theorem exec_faults_or_completes {i : Instr} {s t : State} (h : exec i s = .next t) :
    (∃ w, t = faultState s 4#4 w) ∨ (¬ overflows i s ∧ inRange i s ∧ t = State.after i s) := by
  obtain ⟨_, w, _, ht⟩ | ⟨ho, hr, _⟩ := exec_next h
  · exact .inl ⟨w, ht⟩
  · rw [exec_of_inRange ho hr] at h
    exact .inr ⟨ho, hr, (Host.Outcome.next.inj h).symm⟩

/-- A step with a next state ends the run, enters a fault, or completes the command decoded at `pc` (rule R160). -/
theorem step_stops_or_completes {s t : State} (h : step s = .next t) :
    t = s.endRun ∨ (∃ c w, t = faultState s c w) ∨
      (∃ w rest i, s.cs.drop s.pc.toNat = w :: rest ∧ decode w rest = .ok i ∧ t = State.after i s) := by
  obtain ⟨_, ⟨_, ht⟩ | ⟨w, rest, f, _, _, ht⟩ | ⟨w, rest, i, hd, hi, hx⟩⟩ := step_next h
  · exact .inl ht
  · exact .inr (.inl ⟨_, w, ht⟩)
  · obtain ⟨w', ht⟩ | ⟨_, _, ht⟩ := exec_faults_or_completes hx
    · exact .inr (.inl ⟨_, w', ht⟩)
    · exact .inr (.inr ⟨w, rest, i, hd, hi, ht⟩)

/-! ### Records and seeds -/

/-- Only DIGEST and HASH append (rule R21). -/
theorem recordsOf_eq_nil {i : Instr} (h : i.emits = false) (e32 : E32) (e64 : E64) : recordsOf i e32 e64 = [] :=
  List.eq_nil_of_length_eq_zero (by rw [recordsOf_length, h]; rfl)

/-- A command appends at most one record (rule R21). -/
theorem recordsOf_length_le (i : Instr) (e32 : E32) (e64 : E64) : (recordsOf i e32 e64).length ≤ 1 := by
  rw [recordsOf_length]; split <;> decide

/-- Only INIT and HASH change a seed of E32 (rule R11). -/
theorem engine32After_seed {i : Instr} (h : i.constructs = false) (e : E32) : (engine32After i e).seed = e.seed := by
  cases i with
  | update32 data => exact update_seed _ e data
  | digest32 => exact reseed_seed _ e
  | nop | update64 _ | digest64 => rfl
  | init32 _ | init64 _ | hash32 _ _ | hash64 _ _ => cases h

/-- Only INIT and HASH change a seed of E64 (rule R11). -/
theorem engine64After_seed {i : Instr} (h : i.constructs = false) (e : E64) : (engine64After i e).seed = e.seed := by
  cases i with
  | update64 data => exact update_seed _ e data
  | digest64 => exact reseed_seed _ e
  | nop | update32 _ | digest32 => rfl
  | init32 _ | init64 _ | hash32 _ _ | hash64 _ _ => cases h

/-- Settles O47, case by case over what a step and what a command can do. -/
theorem wholeMachineFrame : Obligations.WholeMachineFrame := by
  constructor
  · intro s t h
    obtain rfl | ⟨c, w, rfl⟩ | ⟨_, _, i, _, _, rfl⟩ := step_stops_or_completes h
    · exact ⟨endRun_cs s, ⟨[], by simp⟩, .inr ⟨endRun_fpc s, endRun_fword s⟩⟩
    · exact ⟨faultState_cs s c w, ⟨[], by simp⟩, .inl (faultStatus_mode s.status c)⟩
    · exact ⟨after_cs i s, ⟨_, after_out i s, recordsOf_length_le i _ _⟩, .inr ⟨after_fpc i s, after_fword i s⟩⟩
  · intro i s t h
    obtain ⟨w, rfl⟩ | ⟨_, _, rfl⟩ := exec_faults_or_completes h
    · exact ⟨faultState_cs s _ w, fun _ => faultState_out s _ w, fun _ => ⟨by rw [faultState_e32], by rw [faultState_e64]⟩⟩
    · exact ⟨after_cs i s, fun he => by rw [after_out, recordsOf_eq_nil he, List.append_nil],
        fun hc => ⟨engine32After_seed hc s.e32, engine64After_seed hc s.e64⟩⟩

/-- Settles O48: of the three things a step can do only a completed command leaves `MODE = RUN`, and only it moves `pc`. -/
theorem pcMovesOnByCmdlenWithoutWrap : Obligations.PcMovesOnByCmdlenWithoutWrap := by
  intro s t h hs
  have hrun : statusMode s.status = 0#2 := (step_next hs).1
  obtain rfl | ⟨c, w, rfl⟩ | ⟨w, rest, i, hd, hi, rfl⟩ := step_stops_or_completes hs
  · have hmode : statusMode s.endRun.status = 1#2 := statusMode_setStatusMode _ _
    exact ⟨fun h0 => absurd (hmode.symm.trans h0) (by decide), fun _ => endRun_pc s⟩
  · have hmode : statusMode (faultState s c w).status = 2#2 := faultStatus_mode _ _
    exact ⟨fun h0 => absurd (hmode.symm.trans h0) (by decide), fun _ => faultState_pc s c w⟩
  · obtain ⟨hnat, hle⟩ := pc_past_decoded h.memory hd hi
    exact ⟨fun _ => ⟨w, rest, i, hd, hi, hnat, hnat.trans_le hle⟩, fun hstop => absurd hrun hstop⟩

end Sys2Proof.Machine
end

section
/-! PROOFS. Independence of the two engines (10_state.md rule R18): a command for one engine carries any change of the other
through, and two commands for different engines commute up to the order of their records. The parts are the lemmas of
Laws/Engines.lean. -/

namespace Sys2Proof.Machine
open Sys2Proof

/-! ### A command for one engine, with another engine in the other's place -/

/-- A change `f` of the state that the overflow test, rule R15, fault entry and completion of a command all carry through is
carried through by the command. -/
theorem exec_carries_through {i : Instr} {s s' : State} {f : State → State} (ho : overflows i s' ↔ overflows i s)
    (hr : inRange i s' ↔ inRange i s) (hraise : s'.raise .lengthOverflow = mapNext f (s.raise .lengthOverflow))
    (hafter : State.after i s' = f (State.after i s)) : exec i s' = mapNext f (exec i s) := by
  by_cases hov : overflows i s
  · rw [exec_of_overflows hov, exec_of_overflows (ho.mpr hov), hraise]
  · by_cases hin : inRange i s
    · rw [exec_of_inRange hov hin, exec_of_inRange (ho.not.mpr hov) (hr.mpr hin), mapNext, hafter]
    · rw [exec_of_not_inRange hov hin, exec_of_not_inRange (ho.not.mpr hov) (hr.not.mpr hin), mapNext]

/-- Fault entry neither reads nor writes E64 (rule R155). -/
theorem raise_with_e64 (s : State) (x : E64) (c : Cause) :
    State.raise { s with e64 := x } c = mapNext (fun t => { t with e64 := x }) (s.raise c) := by
  cases hw : s.cs[s.pc.toNat]? <;> simp only [State.raise, hw, mapNext]

/-- Fault entry neither reads nor writes E32 (rule R155). -/
theorem raise_with_e32 (s : State) (x : E32) (c : Cause) :
    State.raise { s with e32 := x } c = mapNext (fun t => { t with e32 := x }) (s.raise c) := by
  cases hw : s.cs[s.pc.toNat]? <;> simp only [State.raise, hw, mapNext]

/-- A completed command for E32 carries any E64 through. -/
theorem after_with_e64 {i : Instr} (h : i.onE32 = true) (s : State) (x : E64) :
    State.after i { s with e64 := x } = { State.after i s with e64 := x } := by
  simp only [State.after, State.moved, engine64After_onE32 h, recordsOf_onE32 h s.e32 x s.e64]

/-- A completed command for E64 carries any E32 through. -/
theorem after_with_e32 {i : Instr} (h : i.onE64 = true) (s : State) (x : E32) :
    State.after i { s with e32 := x } = { State.after i s with e32 := x } := by
  simp only [State.after, State.moved, engine32After_onE64 h, recordsOf_onE64 h x s.e32 s.e64]

/-- Settles O53: each of a command's outcomes carries the other engine through. -/
theorem commandsIgnoreTheOtherEngine : Obligations.CommandsIgnoreTheOtherEngine := by
  constructor
  · intro i s x h
    exact exec_carries_through (overflows_onE32 h rfl) (inRange_onE32 h rfl) (raise_with_e64 s x _) (after_with_e64 h s x)
  · intro i s x h
    exact exec_carries_through (overflows_onE64 h rfl) (inRange_onE64 h rfl) (raise_with_e32 s x _) (after_with_e32 h s x)

/-! ### Two commands for different engines -/

/-- The commands select different engines. -/
def Independent (a b : Instr) : Prop := (a.onE32 = true ∧ b.onE64 = true) ∨ (a.onE64 = true ∧ b.onE32 = true)

namespace Independent
variable {a b : Instr} (h : Independent a b) (s : State)
include h

theorem symm : Independent b a := (Or.symm h).imp And.symm And.symm

theorem overflows_after : overflows b (State.after a s) ↔ overflows b s := by
  rcases h with ⟨ha, hb⟩ | ⟨ha, hb⟩
  · exact overflows_onE64 hb (after_e64_onE32 ha s)
  · exact overflows_onE32 hb (after_e32_onE64 ha s)

theorem inRange_after : inRange b (State.after a s) ↔ inRange b s := by
  rcases h with ⟨ha, hb⟩ | ⟨ha, hb⟩
  · exact inRange_onE64 hb (after_e64_onE32 ha s)
  · exact inRange_onE32 hb (after_e32_onE64 ha s)

theorem recordsOf_after :
    recordsOf b (State.after a s).e32 (State.after a s).e64 = recordsOf b s.e32 s.e64 := by
  rcases h with ⟨ha, hb⟩ | ⟨ha, hb⟩
  · rw [after_e64_onE32 ha, recordsOf_onE64 hb _ s.e32]
  · rw [after_e32_onE64 ha, recordsOf_onE32 hb _ _ s.e64]

theorem engine32After_comm (e : E32) : engine32After b (engine32After a e) = engine32After a (engine32After b e) := by
  rcases h with ⟨_, hb⟩ | ⟨ha, _⟩
  · rw [engine32After_onE64 hb, engine32After_onE64 hb]
  · rw [engine32After_onE64 ha, engine32After_onE64 ha]

theorem engine64After_comm (e : E64) : engine64After b (engine64After a e) = engine64After a (engine64After b e) := by
  rcases h with ⟨ha, _⟩ | ⟨_, hb⟩
  · rw [engine64After_onE32 ha, engine64After_onE32 ha]
  · rw [engine64After_onE32 hb, engine64After_onE32 hb]

/-- The state after both commands, the second one's records being those it has without the first. -/
theorem after_after : State.after b (State.after a s) =
    s.moved (engine32After b (engine32After a s.e32)) (engine64After b (engine64After a s.e64))
      (recordsOf a s.e32 s.e64 ++ recordsOf b s.e32 s.e64) (a.cmdlen + b.cmdlen) := by
  have hrec := h.recordsOf_after s
  rw [State.after, hrec]
  simp only [State.after, State.moved, BitVec.ofNat_add, BitVec.add_assoc, List.append_assoc]

/-- The other order gives the same state up to the order of the records. -/
theorem after_exchange : State.after a (State.after b s) =
    { State.after b (State.after a s) with
      out := s.out ++ recordsOf b s.e32 s.e64 ++ recordsOf a s.e32 s.e64 } := by
  rw [h.after_after, h.symm.after_after, h.engine32After_comm, h.engine64After_comm, Nat.add_comm]
  simp only [State.moved, List.append_assoc]

end Independent

/-- A command that leaves `MODE = RUN` completes (rule R155). -/
theorem exec_completes {i : Instr} {s t : State} (h0 : statusMode s.status = 0#2) (h : exec i s = .next t)
    (hst : t.status = s.status) : ¬ overflows i s ∧ inRange i s ∧ t = State.after i s := by
  obtain ⟨w, rfl⟩ | hc := exec_faults_or_completes h
  · have hmode : statusMode s.status = 2#2 := hst ▸ faultStatus_mode s.status 4#4
    exact absurd (h0.symm.trans hmode) (by decide)
  · exact hc

/-- Settles O54: both commands complete in either order, and the two states after them differ in the order of the records
only. -/
theorem commandsOfDifferentEnginesExchange : Obligations.CommandsOfDifferentEnginesExchange := by
  intro a b s t u hab h0 ha hta hb hub
  have hind : Independent a b := hab
  obtain ⟨hoa, hra, rfl⟩ := exec_completes h0 ha hta
  obtain ⟨hob, hrb, rfl⟩ := exec_completes (hta ▸ h0) hb hub
  have hob' := (hind.overflows_after s).not.mp hob
  have hrb' := (hind.inRange_after s).mp hrb
  have hoa' := (hind.symm.overflows_after s).not.mpr hoa
  have hra' := (hind.symm.inRange_after s).mpr hra
  refine ⟨State.after b s, State.after a (State.after b s), recordsOf a s.e32 s.e64, recordsOf b s.e32 s.e64,
    exec_of_inRange hob' hrb', exec_of_inRange hoa' hra', ?_, hind.after_exchange s⟩
  rw [after_out, hind.recordsOf_after, after_out]

end Sys2Proof.Machine
end

section
/-! PROOFS. Decoding what `Encode` wrote (30_encoding.md rules R50, R57, R59, R65): the words of a well-formed command decode
to it, whatever words follow. -/

namespace Sys2Proof

/-- The encoding of a command has `cmdlen` words (rules R50, R65). -/
theorem encode_length (i : Instr) : (encode i).length = i.cmdlen := by
  rw [encode, Instr.operandWords, List.length_cons, List.length_append, seedWords_length, packBytes_length, Instr.cmdlen,
    payloadWordCount_payload, Nat.add_comm, Nat.add_assoc]

/-- The seed words and the payload of a command, read back by its mnemonic, give the command (rules R56, R59). -/
theorem build_operands (i : Instr) (rest : List Word) :
    i.opcode.build (seedOperand i.format (i.seedWords ++ rest)) i.payload = i := by
  cases i with
  | nop | update32 _ | update64 _ | digest32 | digest64 => rfl
  | init32 seed | init64 seed | hash32 seed _ | hash64 seed _ =>
    exact congrArg (Opcode.build _ · _) (seed_split seed)

/-- The payload words among the words after the header (rule R50). -/
theorem payloadWords_operandWords (i : Instr) (rest : List Word) :
    ((i.operandWords ++ rest).drop (seedWordCount i.format)).take (payloadWordCount i.format i.payload.length) =
      packBytes i.payload := by
  rw [Instr.operandWords, List.append_assoc, List.drop_left' (seedWords_length i),
    List.take_left' ((packBytes_length _).trans (payloadWordCount_payload i).symm)]

/-- The words of a well-formed command decode to it, whatever words follow (rule R65). -/
theorem decode_encode {i : Instr} (h : i.wf = true) (rest : List Word) :
    decode i.header (i.operandWords ++ rest) = .ok i := by
  have hcomplete : ¬ (i.operandWords ++ rest).length <
      seedWordCount i.format + payloadWordCount i.format i.payload.length := by
    rw [Instr.operandWords, List.length_append, List.length_append, seedWords_length, packBytes_length,
      payloadWordCount_payload]
    omega
  have hbuild : i.opcode.build (seedOperand i.format (i.operandWords ++ rest)) i.payload = i := by
    rw [Instr.operandWords, List.append_assoc, build_operands]
  rw [decode_of_selects (header_selects h)]
  simp only [rowOf_format, header_len h, payloadWords_operandWords]
  rw [if_neg hcomplete, if_pos (packBytes_padding _), payloadBytes_packBytes, hbuild]

end Sys2Proof
end

section
/-! PROOFS. Runs of encoded streams (20_memory.md rule R41, 60_exceptions.md rules R160, R161): while the words from `pc` on
encode a list of commands, a step executes the first of them, and the run ends in `DONE` behind the last. The invariants keep
`pc` from wrapping. -/

namespace Sys2Proof.Machine
open Sys2Proof

/-- A step where the words at `pc` decode executes the command (rule R160). -/
theorem step_of_ok {s : State} {w : Word} {rest : List Word} {i : Instr} (h0 : statusMode s.status = Mode.run.code)
    (hd : s.cs.drop s.pc.toNat = w :: rest) (hi : decode w rest = .ok i) : step s = exec i s := by
  simp only [step, sequencerStep, if_pos h0, runningStep, State.fetch, hd, hi]

/-- A step at the end of the stream ends the run (rules R160, R161). -/
theorem step_of_endOfStream {s : State} (h0 : statusMode s.status = Mode.run.code) (he : s.pc.toNat = s.cs.length) :
    step s = .next s.endRun := by
  have hd : s.cs.drop s.pc.toNat = [] := List.drop_of_length_le he.ge
  simp only [step, sequencerStep, if_pos h0, runningStep, State.fetch, hd, if_pos he]

/-- One more step in front of a run. -/
theorem runSteps_succ {s u : State} (h : step s = .next u) (k : Nat) : runSteps (k + 1) s = runSteps k u := by
  rw [runSteps, h]

/-- Executing a list of commands executes the first, then the others on the state it left. -/
theorem execAll_cons_next {i : Instr} {is : List Instr} {s t : State} (h : execAll (i :: is) s = .next t) :
    ∃ u, exec i s = .next u ∧ execAll is u = .next t := by
  rw [execAll] at h
  cases hu : exec i s with
  | next u => exact ⟨u, rfl, by rwa [hu] at h⟩
  | fault f => rw [hu] at h; cases h
  | refused r => rw [hu] at h; cases h

/-- A command that leaves the block in `RUN` has completed, whatever `MODE` it was asked in (rule R155). -/
theorem exec_eq_after_of_run {i : Instr} {s t : State} (h : exec i s = .next t)
    (h0 : statusMode t.status = Mode.run.code) : t = State.after i s := by
  obtain ⟨w, rfl⟩ | ⟨_, _, ht⟩ := exec_faults_or_completes h
  · exact absurd ((faultStatus_mode s.status 4#4).symm.trans h0) (by decide)
  · exact ht

/-- Commands that end in `RUN` have raised no fault on the way: `STATUS` is what it was (rule R156). -/
theorem execAll_keeps_status {is : List Instr} {s t : State} (h : execAll is s = .next t)
    (h0 : statusMode t.status = Mode.run.code) : t.status = s.status := by
  induction is generalizing s with
  | nil => rw [Host.Outcome.next.inj h]
  | cons i is ih =>
    obtain ⟨u, hu, hrest⟩ := execAll_cons_next h
    have hstatus : t.status = u.status := ih hrest
    rw [hstatus, exec_eq_after_of_run hu (hstatus ▸ h0), after_status]

/-- The end of a run from a running block (rule R161). -/
theorem endRun_of_running {s : State} (h : s.status = 0#32) : s.endRun = { s with status := 1#32 } := by
  have hdone : setStatusMode 0#32 Mode.done.code = 1#32 := by decide
  rw [State.endRun, h, hdone]

/-- The encoding of a well-formed command at `pc` is executed by a step, and the words behind it are those from the new `pc`
on (rules R19, R160). -/
theorem step_of_encode {i : Instr} {s u : State} {rest : List Word} (hs : s.Inv)
    (h0 : statusMode s.status = Mode.run.code) (hwf : i.wf = true) (hd : s.cs.drop s.pc.toNat = encode i ++ rest)
    (hu : exec i s = .next u) (hu0 : statusMode u.status = Mode.run.code) :
    step s = .next u ∧ u.cs.drop u.pc.toNat = rest := by
  have hdec := decode_encode hwf rest
  obtain ⟨hpc, _⟩ := pc_past_decoded hs.memory hd hdec
  refine ⟨(step_of_ok h0 hd hdec).trans hu, ?_⟩
  rw [exec_eq_after_of_run hu hu0, after_cs, after_pc, hpc, ← List.drop_drop, hd, List.drop_left' (encode_length i)]

/-- From any invariant state: the commands that the words from `pc` on encode run in order, one step each, and one more step
ends the run in `DONE` (rules R41, R160, R161). -/
theorem runSteps_of_encoded {is : List Instr} {s t : State} (hs : s.Inv) (hwf : ∀ i ∈ is, i.wf = true)
    (hd : s.cs.drop s.pc.toNat = is.flatMap encode) (hx : execAll is s = .next t) (ht : t.status = 0#32) :
    runSteps (is.length + 1) s = .next { t with status := 1#32 } := by
  have ht0 : statusMode t.status = Mode.run.code := by rw [ht]; decide
  have hs0 : statusMode s.status = Mode.run.code := execAll_keeps_status hx ht0 ▸ ht0
  induction is generalizing s with
  | nil =>
    obtain rfl := Host.Outcome.next.inj hx
    have he : s.pc.toNat = s.cs.length := hs.pcInStream.antisymm (List.drop_eq_nil_iff.mp hd)
    rw [List.length_nil, runSteps_succ (step_of_endOfStream hs0 he), endRun_of_running ht, runSteps]
  | cons i is ih =>
    obtain ⟨u, hu, hrest⟩ := execAll_cons_next hx
    have hu0 : statusMode u.status = Mode.run.code := execAll_keeps_status hrest ht0 ▸ ht0
    obtain ⟨hi, his⟩ := List.forall_mem_cons.mp hwf
    obtain ⟨hstep, hdu⟩ := step_of_encode hs hs0 hi hd hu hu0
    rw [List.length_cons, runSteps_succ hstep]
    exact ih (stepKeepsTheInvariant s u hs hstep) his hdu hrest hu0

/-- Settles O51: a launch state is an invariant state with `pc` at the first word of the stream. -/
theorem streamsRunInOrderToDone : Obligations.StreamsRunInOrderToDone := by
  intro is s t hs hwf hcs hx ht
  have hd : s.cs.drop s.pc.toNat = is.flatMap encode := by rw [hs.pcZero, hcs]; rfl
  exact runSteps_of_encoded hs.inv hwf hd hx ht

end Sys2Proof.Machine
end

section
/-! PROOFS. The value of a read (20_memory.md rule R32): a little-endian value is the number with the bytes as its digits in
base 256, and it fits the width that has room for the bytes. -/

namespace Sys2Proof.Machine
open Sys2Proof

/-- The bytes are the digits in base 256, the first least significant. -/
theorem littleEndian_eq_ofDigits (bs : List Byte) : littleEndian bs = Nat.ofDigits 256 (bs.map BitVec.toNat) := by
  induction bs with
  | nil => rfl
  | cons b bs ih => rw [littleEndian, ih, List.map_cons, Nat.ofDigits_cons]

/-- Bytes have a value of eight bits each. -/
theorem littleEndian_lt (bs : List Byte) : littleEndian bs < 2 ^ (8 * bs.length) := by
  have hdigit : ∀ x ∈ bs.map BitVec.toNat, x < 256 := by
    intro x hx
    obtain ⟨b, _, rfl⟩ := List.mem_map.mp hx
    exact b.isLt
  have h := Nat.ofDigits_lt_base_pow_length (by decide) hdigit
  rwa [← littleEndian_eq_ofDigits, List.length_map, show 256 = 2 ^ 8 from rfl, ← Nat.pow_mul] at h

/-- The sum of rule R32 over the bytes of a sequence. -/
theorem littleEndian_eq_sum (bs : List Byte) :
    littleEndian bs = ((List.range bs.length).map (fun i => (bs.getD i 0#8).toNat * 2 ^ (8 * i))).sum := by
  rw [littleEndian_eq_ofDigits, Nat.ofDigits_eq_sum_mapIdx]
  congr 1
  apply List.ext_getElem
  · simp
  · intro i hi _
    have hi' : i < bs.length := by simpa using hi
    simp [hi', Nat.pow_mul]

/-- Settles O40: the bytes read are those at `off`, and their value fits the width. The three sizes of the rule play no part:
it holds of every `n`. -/
theorem memReadIsLittleEndian : Obligations.MemReadIsLittleEndian := by
  intro w buf off n _ hin hw
  have hlen : ((buf.drop off).take n).length = n := by rw [List.length_take, List.length_drop]; omega
  have hfits : littleEndian ((buf.drop off).take n) < 2 ^ w :=
    (littleEndian_lt _).trans_le (Nat.pow_le_pow_right (by decide) (by rwa [hlen]))
  rw [memRead, toNat_ofNat_lt hfits, littleEndian_eq_sum, hlen]
  congr 1
  apply List.map_congr_left
  intro i hi
  have hi' : i < n := List.mem_range.mp hi
  simp [List.getD_eq_getElem?_getD, hi']

end Sys2Proof.Machine
end

section
/-! PROOFS. Encoding what `Decode` read (30_encoding.md rules R55 to R60, R65): a header is its row's pattern and `LEN`, the
seed words and the payload words of a command that decodes are those of the stream, so its encoding is the words it was
decoded from. -/

namespace Sys2Proof

/-! ### The header -/

/-- A header is the pattern of the row it selects and the payload length (rules R51, R58). -/
theorem toNat_of_selects {o : Opcode} {w : Word} (h : (rowOf o).selects w = true) :
    w.toNat = (rowOf o).pattern.toNat + headerLen w := by
  rw [selects_iff] at h
  rw [headerLen_eq]
  cases o <;> simp only [rowOf, BitVec.toNat_ofNat] <;> dsimp only at h <;> omega

/-- The number of payload words a legal header asks for: in formats N and S it has `LEN = 0` (rules R50, R60). -/
theorem payloadWordCount_of_selects {o : Opcode} {w : Word} (h : (rowOf o).selects w = true) :
    payloadWordCount (rowOf o).format (headerLen w) = (headerLen w + 3) / 4 := by
  rw [selects_iff] at h
  have hlen := headerLen_eq w
  cases o <;> simp only [rowOf, payloadWordCount] <;> dsimp only at h <;> omega

/-! ### The operand words -/

/-- The payload words that follow the header `w` of a command of format `f` (rule R50). -/
def payloadWordsAt (f : Format) (w : Word) (rest : List Word) : List Word :=
  (rest.drop (seedWordCount f)).take ((headerLen w + 3) / 4)

/-- `Decode` of a legal header, by the payload words it asks for (rule R59). -/
theorem decode_of_row {o : Opcode} {w : Word} (h : (rowOf o).selects w = true) (rest : List Word) :
    decode w rest =
      if rest.length < seedWordCount (rowOf o).format + (headerLen w + 3) / 4 then .error .truncatedCommand
      else if paddingIsZero (headerLen w) (payloadWordsAt (rowOf o).format w rest) then
        .ok (o.build (seedOperand (rowOf o).format rest)
          (payloadBytes (headerLen w) (payloadWordsAt (rowOf o).format w rest)))
      else .error .nonzeroPad := by
  rw [decode_of_selects h]
  dsimp only
  rw [payloadWordCount_of_selects h]
  rfl

/-- A complete command has all its payload words. -/
theorem payloadWordsAt_length {f : Format} {w : Word} {rest : List Word}
    (h : seedWordCount f + (headerLen w + 3) / 4 ≤ rest.length) :
    (payloadWordsAt f w rest).length = (headerLen w + 3) / 4 := by
  rw [payloadWordsAt, List.length_take, List.length_drop]
  omega

/-- The seed words of a command built from the stream are the words the stream begins with (rule R56). -/
theorem build_seedWords (o : Opcode) {rest : List Word} (data : List Byte)
    (h : seedWordCount (rowOf o).format ≤ rest.length) :
    (o.build (seedOperand (rowOf o).format rest) data).seedWords = rest.take (seedWordCount (rowOf o).format) := by
  cases o with
  | nop | update32 | update64 | digest32 | digest64 => rfl
  | init32 | init64 | hash32 | hash64 =>
    obtain ⟨lo, hi, tail, rfl⟩ : ∃ lo hi tail, rest = lo :: hi :: tail :=
      match rest, h with | lo :: hi :: tail, _ => ⟨lo, hi, tail, rfl⟩
    simp only [Opcode.build, rowOf, seedOperand, Instr.seedWords, seed_lo, seed_hi, seedWordCount, List.take_succ_cons,
      List.take_zero]

/-- A command built by a mnemonic has the format of its row. -/
theorem build_format (o : Opcode) (seed : Word64) (data : List Byte) :
    (o.build seed data).format = (rowOf o).format := by
  rw [← rowOf_format, build_opcode]

/-! ### Commands that decode -/

section decoded
variable {w : Word} {rest : List Word} {i : Instr} (h : decode w rest = .ok i)
include h

/-- A command that decodes is built by the mnemonic whose row the header selects, from complete operands with zero padding
(rule R59). -/
theorem decode_inversion : ∃ o, (rowOf o).selects w = true ∧
    seedWordCount (rowOf o).format + (headerLen w + 3) / 4 ≤ rest.length ∧
    paddingIsZero (headerLen w) (payloadWordsAt (rowOf o).format w rest) = true ∧
    i = o.build (seedOperand (rowOf o).format rest)
      (payloadBytes (headerLen w) (payloadWordsAt (rowOf o).format w rest)) := by
  obtain ⟨hsel, hlen, hpad, hbuild⟩ := decode_ok h
  rw [← rowOf_format, payloadWordCount_of_selects hsel] at hlen hpad hbuild
  exact ⟨_, hsel, hlen, hpad, hbuild⟩

/-- A command that decodes is complete (rule R59). -/
theorem decode_complete : seedWordCount i.format + (headerLen w + 3) / 4 ≤ rest.length := by
  obtain ⟨o, _, hlen, _, rfl⟩ := decode_inversion h
  rwa [build_format]

/-- The padding of a command that decodes is zero (rule R57). -/
theorem decode_padding : paddingIsZero (headerLen w) (payloadWordsAt i.format w rest) = true := by
  obtain ⟨o, _, _, hpad, rfl⟩ := decode_inversion h
  rwa [build_format]

/-- The seed words of the stream are those of the command (rule R56). -/
theorem decode_seedWords : i.seedWords = rest.take (seedWordCount i.format) := by
  obtain ⟨o, _, hlen, _, rfl⟩ := decode_inversion h
  rw [build_format, build_seedWords o _ (Nat.le_of_add_right_le hlen)]

/-- The payload of a command that decodes; empty in formats N and S, whose header has `LEN = 0` (rules R57, R59, R60). -/
theorem decode_payload : i.payload = payloadBytes (headerLen w) (payloadWordsAt i.format w rest) := by
  obtain ⟨o, hsel, _, _, rfl⟩ := decode_inversion h
  have hcount := payloadWordCount_of_selects hsel
  rw [build_format, build_payload]
  cases hf : (rowOf o).format with
  | p | sp => rfl
  | n | s =>
    have hzero : headerLen w = 0 := by rw [hf, payloadWordCount] at hcount; omega
    rw [hzero, payloadBytes, List.take_zero]
    rfl

/-- The payload has as many bytes as `LEN` says (rule R55). -/
theorem decode_payload_length : i.payload.length = headerLen w := by
  have hwords := payloadWordsAt_length (decode_complete h)
  rw [decode_payload h, payloadBytes_length]
  omega

/-- The payload words of the stream are the packed payload (rule R57). -/
theorem decode_packBytes : packBytes i.payload = payloadWordsAt i.format w rest := by
  rw [decode_payload h]
  exact pack_unpack _ _ (payloadWordsAt_length (decode_complete h)) (decode_padding h)

/-- A command that decodes can be encoded (rule R55). -/
theorem decode_wf : i.wf = true := decide_eq_true (decode_payload_le h)

/-- The header of the command is the header it was decoded from (rule R65). -/
theorem decode_header : i.header = w := by
  obtain ⟨hsel, _⟩ := decode_ok h
  apply BitVec.eq_of_toNat_eq
  rw [header_toNat (decode_wf h), toNat_of_selects hsel, decode_payload_length h]

/-- The operand words of the command are the words behind the header (rule R65). -/
theorem decode_operandWords : i.operandWords = rest.take (i.cmdlen - 1) := by
  have hcmdlen : i.cmdlen - 1 = seedWordCount i.format + (headerLen w + 3) / 4 := by
    rw [Instr.cmdlen, payloadWordCount_payload, decode_payload_length h]
    omega
  rw [Instr.operandWords, decode_seedWords h, decode_packBytes h, payloadWordsAt, hcmdlen, List.take_add]

end decoded

/-- Settles O2: `decode_encode` and `encode_length`. -/
theorem decodeOfEncodeGivesTheCommandBack : Obligations.DecodeOfEncodeGivesTheCommandBack :=
  fun i rest h => ⟨decode_encode h rest, encode_length i⟩

/-- Settles O3: header and operand words are those of the stream, and the words behind them are left over. -/
theorem encodeOfDecodeGivesTheWordsBack : Obligations.EncodeOfDecodeGivesTheWordsBack := by
  intro w rest i h
  refine ⟨decode_wf h, ?_⟩
  rw [encode, decode_header h, decode_operandWords h, List.cons_append, List.take_append_drop]

/-- Settles O4: a row of the map is the row of its mnemonic, and a header selects that of at most one. -/
theorem opcodeRowsAreDisjoint : Obligations.OpcodeRowsAreDisjoint := by
  intro w r₁ r₂ h₁ h₂ hs₁ hs₂
  rw [mem_opcodeRows.mp h₁] at hs₁
  rw [mem_opcodeRows.mp h₂] at hs₂
  rw [mem_opcodeRows.mp h₁, mem_opcodeRows.mp h₂, selects_unique hs₁ hs₂]

end Sys2Proof
end

section
/-! PROOFS. The operands of a command that decodes (30_encoding.md rules R56, R57): the seed operand, low word first, and the
payload bytes in the words that carry them, with their padding. -/

namespace Sys2Proof.Machine
open Sys2Proof

/-! ### The seed operand -/

/-- The seed operand of a command built by a mnemonic of format S or SP (rule R59). -/
theorem build_seedOperand {o : Opcode} (ho : (rowOf o).format = .s ∨ (rowOf o).format = .sp) (seed : Word64)
    (data : List Byte) : (o.build seed data).seedOperand = some seed := by
  cases o with
  | nop | update32 | update64 | digest32 | digest64 => exact absurd ho (by decide)
  | init32 | init64 | hash32 | hash64 => rfl

/-- In formats S and SP the two words behind the header are the seed operand, low word first (rule R56). -/
theorem seedOperand_of_words {f : Format} (hf : f = .s ∨ f = .sp) (lo hi : Word) (rest : List Word) :
    seedOperand f (lo :: hi :: rest) = seedOfWords lo hi := by
  obtain rfl | rfl := hf <;> rfl

/-- E64 takes the whole seed operand (rule R56). -/
theorem seedForEngine64_eq (seed : Word64) : seedForEngine 64 seed = seed := BitVec.setWidth_eq seed

/-- E32 takes the low word of the seed operand (rules R56, R91). -/
theorem seedForEngine32_seedOfWords (lo hi : Word) : seedForEngine 32 (seedOfWords lo hi) = lo := by
  rw [seedForEngine, trunc, seedOfWords, BitVec.setWidth_append_eq_right]

/-- INIT32 reads the seed as E32 takes it (rules R91, R92). -/
theorem exec_init32_congr {seed seed' : Word64} (h : seedForEngine 32 seed = seedForEngine 32 seed') (s : State) :
    exec (.init32 seed) s = exec (.init32 seed') s := by
  rw [exec, exec, execInit32, execInit32, h, advance_eq_moved, advance_eq_moved]
  rfl

/-- HASH32 reads the seed as E32 takes it (rules R91, R140). -/
theorem exec_hash32_congr {seed seed' : Word64} (h : seedForEngine 32 seed = seedForEngine 32 seed') (data : List Byte)
    (s : State) : exec (.hash32 seed data) s = exec (.hash32 seed' data) s := by
  rw [exec, exec, execHash32, execHash32, h, finishE32_eq_moved, finishE32_eq_moved]
  rfl

/-- Settles O5: `OP` 1 and 4 are the rows of formats S and SP; E32 takes the low word of the operand. -/
theorem seedOperandIsLowWordFirst : Obligations.SeedOperandIsLowWordFirst := by
  refine ⟨?_, ?_, ?_⟩
  · intro w lo hi rest i h hop
    obtain ⟨o, hsel, _, _, rfl⟩ := decode_inversion h
    obtain ⟨_, _, hs, _, hsp⟩ := opOf_selects hsel
    have hf : (rowOf o).format = .s ∨ (rowOf o).format = .sp := hop.imp hs.mp hsp.mp
    rw [build_seedOperand hf, seedOperand_of_words hf, Option.map_some, seedOfWords_toNat]
  · intro seed
    exact ⟨congrArg _ (seedForEngine64_eq seed), BitVec.toNat_setWidth 32 seed⟩
  · intro lo hi hi' data s
    have h : seedForEngine 32 (seedOfWords lo hi) = seedForEngine 32 (seedOfWords lo hi') := by
      rw [seedForEngine32_seedOfWords, seedForEngine32_seedOfWords]
    exact ⟨exec_init32_congr h s, exec_hash32_congr h data s⟩

/-! ### The payload operand -/

/-- Byte `j` of the bytes that words carry lies in word `j div 4` (rule R57). -/
theorem unpacked_getElem? (ws : List Word) (j : Nat) :
    (ws.flatMap unpackWord)[j]? = ws[j / 4]?.map (fun v => v.extractLsb' (8 * (j % 4)) 8) := by
  induction ws generalizing j with
  | nil => rfl
  | cons w ws ih =>
    rw [List.flatMap_cons, unpackWord]
    match j with
    | 0 | 1 | 2 | 3 => rfl
    | j + 4 =>
      have hword : (j + 4) / 4 = j / 4 + 1 := by omega
      have hbyte : (j + 4) % 4 = j % 4 := by omega
      rw [hword, hbyte, List.getElem?_cons_succ, ← ih j]
      rfl

/-- The payload words are the words from the first payload word on (rule R50). -/
theorem payloadWordsAt_getElem? (f : Format) {w : Word} (rest : List Word) {k : Nat} (hk : k < (headerLen w + 3) / 4) :
    (payloadWordsAt f w rest)[k]? = rest[seedWordCount f + k]? := by
  rw [payloadWordsAt, List.getElem?_take_of_lt hk, List.getElem?_drop]

/-- Payload byte `j` of a command that decodes (rule R57). -/
theorem decode_payload_getElem? {w : Word} {rest : List Word} {i : Instr} (h : decode w rest = .ok i) {j : Nat}
    (hj : j < headerLen w) :
    i.payload[j]? = rest[seedWordCount i.format + j / 4]?.map (fun v => v.extractLsb' (8 * (j % 4)) 8) := by
  rw [decode_payload h, payloadBytes, List.getElem?_take_of_lt hj, unpacked_getElem?,
    payloadWordsAt_getElem? _ _ (by omega)]

/-- A right shift leaves nothing exactly where the quotient is zero. -/
theorem shiftRight_eq_zero_iff (v : Word) (n : Nat) : v >>> n = 0#32 ↔ v.toNat / 2 ^ n = 0 := by
  rw [← BitVec.toNat_inj, BitVec.toNat_ushiftRight, Nat.shiftRight_eq_div_pow]
  rfl

/-- The padding test where `LEN` is no multiple of four: it is about payload word `LEN div 4`, which is the last (rule
R57). -/
theorem paddingIsZero_iff {len : Nat} {ws : List Word} {v : Word} (hw : ws.length = (len + 3) / 4) (hr : len % 4 ≠ 0)
    (hv : ws[len / 4]? = some v) : paddingIsZero len ws = true ↔ v.toNat / 2 ^ (8 * (len % 4)) = 0 := by
  have hlast : ws.getLast? = some v := by
    rw [List.getLast?_eq_getElem?, ← hv]
    congr 1
    omega
  simp only [paddingIsZero, hlast, Bool.or_eq_true, beq_iff_eq, hr, false_or, shiftRight_eq_zero_iff]

/-- The last payload word of a command that is not a whole number of words, among the words behind the header. -/
theorem payloadWordsAt_getElem?_last (f : Format) {w : Word} (rest : List Word) (hr : headerLen w % 4 ≠ 0) :
    (payloadWordsAt f w rest)[headerLen w / 4]? = rest[seedWordCount f + headerLen w / 4]? :=
  payloadWordsAt_getElem? f rest (by omega)

/-- The padding bits of a command that decodes are zero (rule R57). -/
theorem decode_padding_bits {w : Word} {rest : List Word} {i : Instr} {v : Word} (h : decode w rest = .ok i)
    (hr : headerLen w % 4 ≠ 0) (hv : rest[seedWordCount i.format + headerLen w / 4]? = some v) :
    v.toNat / 2 ^ (8 * (headerLen w % 4)) = 0 :=
  (paddingIsZero_iff (payloadWordsAt_length (decode_complete h)) hr ((payloadWordsAt_getElem?_last _ rest hr).trans hv)).mp
    (decode_padding h)

/-- A command whose last payload word is there and has a padding bit set raises `NONZERO_PAD` (rules R57, R153). -/
theorem decode_nonzeroPad {o : Opcode} {w : Word} {rest : List Word} {v : Word} (hsel : (rowOf o).selects w = true)
    (hr : headerLen w % 4 ≠ 0) (hv : rest[seedWordCount (rowOf o).format + headerLen w / 4]? = some v)
    (hne : v.toNat / 2 ^ (8 * (headerLen w % 4)) ≠ 0) : decode w rest = .error .nonzeroPad := by
  obtain ⟨hin, _⟩ := List.getElem?_eq_some_iff.mp hv
  have hcomplete : seedWordCount (rowOf o).format + (headerLen w + 3) / 4 ≤ rest.length := by omega
  have hpad := paddingIsZero_iff (payloadWordsAt_length hcomplete) hr ((payloadWordsAt_getElem?_last _ rest hr).trans hv)
  rw [decode_of_row hsel, if_neg (Nat.not_lt.mpr hcomplete), if_neg (fun hz => hne (hpad.mp hz))]

/-- The index of the first payload word behind the header, by `OP` (rules R50, R52). -/
theorem seedWordCount_of_op {o : Opcode} {w : Word} (hsel : (rowOf o).selects w = true)
    (hop : headerOp w = 2#4 ∨ headerOp w = 4#4) :
    (if headerOp w = 2#4 then 0 else 2) = seedWordCount (rowOf o).format := by
  obtain ⟨_, _, _, hp, hsp⟩ := opOf_selects hsel
  obtain h | h := hop
  · rw [if_pos h, hp.mp h, seedWordCount]
  · rw [if_neg (by rw [h]; decide), hsp.mp h, seedWordCount]

/-- Settles O6: `first` is the number of seed words of the row the header selects. -/
theorem payloadOperandIsPackedLittleEndian : Obligations.PayloadOperandIsPackedLittleEndian := by
  intro w rest hlegal hop
  obtain ⟨o, hsel⟩ := legal_row hlegal
  dsimp only
  rw [seedWordCount_of_op hsel hop]
  refine ⟨?_, fun v hr hv hne => decode_nonzeroPad hsel hr hv hne⟩
  intro i h
  obtain ⟨hsel', _⟩ := decode_ok h
  rw [selects_unique hsel hsel', rowOf_format]
  exact ⟨decode_payload_length h, fun j hj => decode_payload_getElem? h hj,
    fun hr v hv => decode_padding_bits h hr hv⟩

end Sys2Proof.Machine
end

section
/-! PROOFS. UPDATE.L (30_encoding.md rule R64 (3), 42_ingest.md rule R106): the pieces of a long payload, and that feeding
pieces one after another ingests their concatenation. -/

namespace Sys2Proof.Machine
open Sys2Proof

/-! ### The pieces of a long payload -/

/-- As many pieces as cuts, and one more. -/
theorem piecesThenRest_length (size k : Nat) (data : List Byte) : (piecesThenRest size k data).length = k + 1 := by
  induction k generalizing data with
  | zero => rfl
  | succ k ih => rw [piecesThenRest, List.length_cons, ih]

/-- The pieces carry the bytes in order. -/
theorem piecesThenRest_flatten (size k : Nat) (data : List Byte) : (piecesThenRest size k data).flatten = data := by
  induction k generalizing data with
  | zero => exact List.flatten_singleton
  | succ k ih => rw [piecesThenRest, List.flatten_cons, ih, List.take_append_drop]

/-- Each piece but the last has `size` bytes, where there are enough of them. -/
theorem length_of_mem_dropLast_piecesThenRest {size k : Nat} {data p : List Byte} (h : k * size ≤ data.length)
    (hp : p ∈ (piecesThenRest size k data).dropLast) : p.length = size := by
  induction k generalizing data with
  | zero => cases hp
  | succ k ih =>
    rw [Nat.succ_mul] at h
    have hne : piecesThenRest size k (data.drop size) ≠ [] :=
      List.ne_nil_of_length_eq_add_one (piecesThenRest_length size k _)
    rw [piecesThenRest, List.dropLast_cons_of_ne_nil hne, List.mem_cons] at hp
    obtain rfl | hp := hp
    · rw [List.length_take]; omega
    · exact ih (by rw [List.length_drop]; omega) hp

/-- No piece is longer than `size`, where one more piece would have room for the rest. -/
theorem length_le_of_mem_piecesThenRest {size k : Nat} {data p : List Byte} (h : data.length ≤ (k + 1) * size)
    (hp : p ∈ piecesThenRest size k data) : p.length ≤ size := by
  induction k generalizing data with
  | zero =>
    obtain rfl := List.mem_singleton.mp hp
    omega
  | succ k ih =>
    rw [Nat.succ_mul] at h
    rw [piecesThenRest, List.mem_cons] at hp
    obtain rfl | hp := hp
    · exact List.length_take_le _ _
    · exact ih (by rw [List.length_drop]; omega) hp

/-! ### Updates one after another -/

section feed
variable {w bs cw : Nat} {P : EngineParams w} {e e₁ e₂ : Engine w bs cw} {A B : List Byte}

/-- An engine as it is has ingested no bytes. -/
theorem Ingested.refl (hc : e.carryLen.toNat < bs) : Ingested P e e [] where
  seed := rfl
  total := rfl
  count := (Nat.mod_eq_of_lt hc).symm
  carry := by rw [List.length_nil, Nat.add_zero, Nat.div_eq_of_lt hc, Nat.zero_mul, List.append_nil, List.drop_zero]
  lanes := by rw [List.length_nil, Nat.add_zero, Nat.div_eq_of_lt hc, mixBlocks]

/-- Ingesting `A` and then `B` is ingesting `A ++ B` (rule R106). -/
theorem Ingested.trans (hc : e.carryLen.toNat < bs) (h₁ : Ingested P e e₁ A) (h₂ : Ingested P e₁ e₂ B) :
    Ingested P e e₂ (A ++ B) := by
  have hbs : 0 < bs := Nat.zero_lt_of_lt hc
  have hn := Nat.div_add_mod (e.carryLen.toNat + A.length) bs
  have hsum : e.carryLen.toNat + (A ++ B).length =
      bs * ((e.carryLen.toNat + A.length) / bs) + (e₁.carryLen.toNat + B.length) := by
    rw [List.length_append, h₁.count]; omega
  have hdiv : (e.carryLen.toNat + (A ++ B).length) / bs =
      (e.carryLen.toNat + A.length) / bs + (e₁.carryLen.toNat + B.length) / bs := by
    rw [hsum, Nat.mul_add_div hbs]
  have hle : (e.carryLen.toNat + A.length) / bs * bs ≤ (e.liveCarry ++ A).length := by
    rw [List.length_append, liveCarry_length e hc.le]
    exact Nat.div_mul_le_self _ _
  -- the stream that counts from the second call on: the live carry bytes between the two, then `B`
  have hstream : (e.liveCarry ++ (A ++ B)).drop ((e.carryLen.toNat + A.length) / bs * bs) = e₁.liveCarry ++ B := by
    rw [h₁.carry, ← List.append_assoc, List.drop_append_of_le_length hle]
  refine ⟨h₂.seed.trans h₁.seed, ?_, ?_, ?_, ?_⟩
  · rw [h₂.total, h₁.total, List.length_append, Nat.add_assoc]
  · rw [h₂.count, hsum, Nat.mul_add_mod]
  · rw [h₂.carry, ← hstream, List.drop_drop, hdiv, Nat.add_mul]
  · have hfirst : mixBlocks P bs (e.liveCarry ++ (A ++ B)) ((e.carryLen.toNat + A.length) / bs) e.lanes =
        mixBlocks P bs (e.liveCarry ++ A) ((e.carryLen.toNat + A.length) / bs) e.lanes :=
      mixBlocks_congr P bs _ _ (by rw [← List.append_assoc, List.take_append_of_le_length hle])
    rw [h₂.lanes, h₁.lanes, hdiv, mixBlocks_add, hstream, hfirst]

/-- Updates one after another ingest the concatenation of their bytes (rule R106). -/
theorem feed_ingested (P : EngineParams w) (hcw : bs < 2 ^ cw) {chunks : List (List Byte)} {e : Engine w bs cw}
    (hc : e.carryLen.toNat < bs) (ht : e.totalLen.toNat + chunks.flatten.length < 2 ^ 64) :
    Ingested P e (feed P e chunks) chunks.flatten := by
  induction chunks generalizing e with
  | nil => exact .refl hc
  | cons d ds ih =>
    rw [List.flatten_cons, List.length_append] at ht
    have hfirst := update_spec P e d hcw hc (by omega)
    rw [List.flatten_cons]
    exact hfirst.trans hc (ih (update_carryLen_lt P e d hcw hc) (by rw [hfirst.total]; omega))

/-- Updates one after another have the effect of one update of all the bytes (rule R106). -/
theorem feed_live (P : EngineParams w) (hcw : bs < 2 ^ cw) (hc : e.carryLen.toNat < bs) (chunks : List (List Byte))
    (ht : e.totalLen.toNat + chunks.flatten.length < 2 ^ 64) :
    (feed P e chunks).live = (e.update P chunks.flatten).live :=
  (feed_ingested P hcw hc ht).live_congr rfl (update_spec P e _ hcw hc ht)

end feed

/-- Settles O55: the pieces are those of `splitPayload`. -/
theorem longUpdateEqualsOneUpdate : Obligations.LongUpdateEqualsOneUpdate := by
  intro data hlong
  have hflat : (splitPayload Config.lenMax data).flatten = data := piecesThenRest_flatten _ _ _
  refine ⟨splitPayload Config.lenMax data, rfl, rfl, hflat, ?_, ?_, ?_, ?_, ?_⟩
  · rw [splitPayload, piecesThenRest_length, Config.lenMax]
    omega
  · intro p hp
    exact length_le_of_mem_piecesThenRest (by rw [Config.lenMax]; omega) hp
  · intro p hp
    exact length_of_mem_dropLast_piecesThenRest (by rw [Config.lenMax]; omega) hp
  · intro e hc ht
    have h := feed_live Config.params32 (by decide) hc (splitPayload Config.lenMax data) (hflat.symm ▸ ht)
    rwa [hflat] at h
  · intro e hc ht
    have h := feed_live Config.params64 (by decide) hc (splitPayload Config.lenMax data) (hflat.symm ▸ ht)
    rwa [hflat] at h

end Sys2Proof.Machine
end

section
/-! PROOFS. The worked encodings of 30_encoding.md (after rule R65): closed words and closed text. -/

namespace Sys2Proof.Machine
open Sys2Proof

/-- Settles O1: a check of closed words. -/
theorem specWordsDecodeToTheirCommands : Obligations.SpecWordsDecodeToTheirCommands := by
  unfold Obligations.SpecWordsDecodeToTheirCommands
  decide

/-- Settles O56: a check of closed text. -/
theorem assemblerGivesTheWorkedEncodings : Obligations.AssemblerGivesTheWorkedEncodings := by
  unfold Obligations.AssemblerGivesTheWorkedEncodings
  decide

end Sys2Proof.Machine
end

section
/-! PROOFS. The arithmetic primitives (40_wide_arithmetic.md rules R70 to R77): each as an operation on natural numbers,
a rotation also bit by bit, and `Round` on top of them. -/

namespace Sys2Proof.Machine
open Sys2Proof

section primitives
variable {w : Nat}

/-- Rule R75. -/
theorem toNat_shr (x : BitVec w) (s : Nat) : (shr x s).toNat = x.toNat / 2 ^ s := by
  rw [shr, BitVec.toNat_ushiftRight, Nat.shiftRight_eq_div_pow]

/-- Rule R70, narrowing. -/
theorem toNat_trunc (n : Nat) (x : BitVec w) : (trunc n x).toNat = x.toNat % 2 ^ n := BitVec.toNat_setWidth n x

/-- Rule R70, widening. -/
theorem toNat_zext {n : Nat} (h : w ≤ n) (x : BitVec w) : (zext n x).toNat = x.toNat := BitVec.toNat_setWidth_of_le h

/-- Rule R74 on natural numbers: the parts share no bit, so their sum does not wrap. -/
theorem toNat_rotl (x : BitVec w) {r : Nat} (h : r < w) : (rotl x r).toNat = rotlNat w x.toNat r := by
  rw [rotl, BitVec.toNat_add_of_and_eq_zero (rotl_parts_disjoint x r h), BitVec.toNat_shiftLeft,
    BitVec.toNat_ushiftRight, Nat.shiftLeft_eq, Nat.shiftRight_eq_div_pow, rotlNat]

/-- A left shift of one word by `r` and a right shift of another by `w - r` share no bit; `rotl_parts_disjoint` is the
case of one word, and the helper on halves needs two. -/
theorem shiftLeft_and_ushiftRight_eq_zero (x y : BitVec w) {r : Nat} (h : r ≤ w) :
    (x <<< r) &&& (y >>> (w - r)) = 0#w := by
  apply BitVec.eq_of_getLsbD_eq
  intro i hi
  rw [BitVec.getLsbD_and, BitVec.getLsbD_shiftLeft, BitVec.getLsbD_ushiftRight, BitVec.getLsbD_zero]
  by_cases hr : i < r
  · simp [hr]
  · rw [BitVec.getLsbD_of_ge y (w - r + i) (by omega), Bool.and_false]

/-- The sum of such shifts, bit by bit: the low `r` bits come from the top of `y`, the others from the bottom of `x`. -/
theorem getLsbD_shiftLeft_add_ushiftRight (x y : BitVec w) {r i : Nat} (h : r ≤ w) (hi : i < w) :
    ((x <<< r) + (y >>> (w - r))).getLsbD i = if i < r then y.getLsbD (w - r + i) else x.getLsbD (i - r) := by
  rw [BitVec.add_eq_or_of_and_eq_zero _ _ (shiftLeft_and_ushiftRight_eq_zero x y h), BitVec.getLsbD_or,
    BitVec.getLsbD_shiftLeft, BitVec.getLsbD_ushiftRight]
  by_cases hr : i < r
  · simp [hr]
  · simp [hr, hi, BitVec.getLsbD_of_ge y (w - r + i) (by omega)]

/-- Where bit `i` of a rotation comes from (rule R74). -/
theorem getLsbD_rotl (x : BitVec w) {r i : Nat} (h : r ≤ w) (hi : i < w) :
    (rotl x r).getLsbD i = if i < r then x.getLsbD (w - r + i) else x.getLsbD (i - r) :=
  getLsbD_shiftLeft_add_ushiftRight x x h hi

/-- Where bit `i` goes in a rotation (rule R74). -/
theorem getLsbD_rotl_add_mod (x : BitVec w) {r i : Nat} (h : r < w) (hi : i < w) :
    (rotl x r).getLsbD ((i + r) % w) = x.getLsbD i := by
  rw [getLsbD_rotl x h.le (Nat.mod_lt _ (by omega))]
  by_cases hwrap : i + r < w
  · rw [Nat.mod_eq_of_lt hwrap, if_neg (by omega), Nat.add_sub_cancel]
  · rw [Nat.mod_eq_sub_mod (by omega), Nat.mod_eq_of_lt (by omega), if_pos (by omega)]
    congr 1
    omega

/-- `Round` masks after every operation (rules R77, R100). -/
theorem toNat_laneRound (P : EngineParams w) (h : P.r1 < w) (acc k : BitVec w) : (laneRound P acc k).toNat =
    roundNat w P.r1 P.prime1.toNat P.prime2.toNat acc.toNat k.toNat := by
  rw [laneRound, BitVec.toNat_mul, toNat_rotl _ h, BitVec.toNat_add, BitVec.toNat_mul, roundNat]

end primitives

/-- Settles O37: the sum of R74 does not wrap, and the bits of a rotation are known one by one. -/
theorem rotateMovesEveryBit : Obligations.RotateMovesEveryBit := by
  refine ⟨fun w x r _ hr => ⟨toNat_rotl x hr, rotl_parts_disjoint x r hr, ?_⟩, by decide⟩
  exact fun i hi => getLsbD_rotl_add_mod x hr hi

/-- Settles O38: the formula at any width, at the parameters of the two engines. -/
theorem roundMasksAfterEveryOperation : Obligations.RoundMasksAfterEveryOperation :=
  ⟨toNat_laneRound Config.params32 (by decide), toNat_laneRound Config.params64 (by decide)⟩

/-- Settles O36: addition, subtraction, multiplication and exclusive or are those of `BitVec`. -/
theorem primitivesReduceModuloTwoToTheWidth : Obligations.PrimitivesReduceModuloTwoToTheWidth := fun _ a b s n =>
  ⟨BitVec.toNat_add a b, BitVec.toNat_sub a b, BitVec.toNat_mul a b, toNat_shr a s, toNat_trunc n a,
    fun h => toNat_zext h a, fun _ => BitVec.getLsbD_xor⟩

end Sys2Proof.Machine
end

section
/-! PROOFS. The wide-arithmetic helper (40_wide_arithmetic.md rules R79 to R86): each operation on halves is the 64-bit
primitive on the words they stand for, for every pair of halves. Sums and products are compared as numbers, rotations,
shifts and exclusive or bit by bit. -/

namespace Sys2Proof.Machine
open Sys2Proof

/-! ### Halves and words -/

/-- A pair of halves is its word read from the top (rule R79). -/
theorem toNat_toWord64 (a : Halves) : a.toWord64.toNat = a.hi.toNat * 2 ^ 32 + a.lo.toNat := by
  have hlo := a.lo.isLt
  have hhi := a.hi.isLt
  rw [Halves.toWord64, BitVec.toNat_ofNat, Nat.mod_eq_of_lt (by omega)]

theorem toWord64_eq_append (a : Halves) : a.toWord64 = a.hi ++ a.lo := by
  apply BitVec.eq_of_toNat_eq
  rw [toNat_toWord64, BitVec.toNat_append, ← Nat.shiftLeft_add_eq_or_of_lt a.lo.isLt, Nat.shiftLeft_eq]

/-- The bits of the word: the low half first. -/
theorem getLsbD_toWord64 (a : Halves) (i : Nat) :
    a.toWord64.getLsbD i = if i < 32 then a.lo.getLsbD i else a.hi.getLsbD (i - 32) := by
  rw [toWord64_eq_append, BitVec.getLsbD_append]

@[simp] theorem toWord64_ofWord64 (x : Word64) : (Halves.ofWord64 x).toWord64 = x := by
  rw [toWord64_eq_append]
  exact (BitVec.extractLsb'_append_extractLsb'_eq_extractLsb' (start₁ := 0) rfl).trans BitVec.extractLsb'_eq_self

/-! ### Sums and products -/

/-- The carry out of the low half enters the high half (rule R80). -/
theorem toWord64_add64H (a b : Halves) : (add64H a b).toWord64 = a.toWord64 + b.toWord64 := by
  apply BitVec.eq_of_toNat_eq
  rw [toNat_toWord64, BitVec.toNat_add, toNat_toWord64, toNat_toWord64, add64H, BitVec.toNat_ofNat, BitVec.toNat_ofNat]
  omega

/-- The borrow of the low half is taken from the high half (rule R81). -/
theorem toWord64_sub64H (a b : Halves) : (sub64H a b).toWord64 = a.toWord64 - b.toWord64 := by
  have ha := a.lo.isLt
  have hb := b.lo.isLt
  apply BitVec.eq_of_toNat_eq
  rw [toNat_toWord64, BitVec.toNat_sub, toNat_toWord64, toNat_toWord64, sub64H, BitVec.toNat_sub, BitVec.toNat_sub,
    BitVec.toNat_sub]
  by_cases hborrow : a.lo < b.lo
  · rw [if_pos hborrow, BitVec.toNat_ofNat]
    rw [BitVec.lt_def] at hborrow
    omega
  · rw [if_neg hborrow, BitVec.toNat_ofNat]
    rw [BitVec.lt_def] at hborrow
    omega

/-- The product of the high halves is a multiple of `2^64` and drops out; the cross products count modulo `2^32`
(rule R82). -/
theorem toWord64_mul64H (a b : Halves) : (mul64H a b).toWord64 = a.toWord64 * b.toWord64 := by
  apply BitVec.eq_of_toNat_eq
  have hsplit : (a.hi.toNat * 2 ^ 32 + a.lo.toNat) * (b.hi.toNat * 2 ^ 32 + b.lo.toNat) =
      a.hi.toNat * b.hi.toNat * 2 ^ 64 + (a.lo.toNat * b.hi.toNat + a.hi.toNat * b.lo.toNat) * 2 ^ 32 +
        a.lo.toNat * b.lo.toNat := by ring
  rw [toNat_toWord64, BitVec.toNat_mul, toNat_toWord64, toNat_toWord64, hsplit, mul64H, BitVec.toNat_ofNat,
    BitVec.toNat_ofNat, BitVec.toNat_mul, BitVec.toNat_mul]
  generalize a.hi.toNat * b.hi.toNat = top, a.lo.toNat * b.hi.toNat = cross, a.hi.toNat * b.lo.toNat = cross',
    a.lo.toNat * b.lo.toNat = low
  omega

/-- A word of 32 bits from its two 16-bit limbs. -/
theorem toNat_eq_limbs (x : BitVec 32) :
    x.toNat = (x.extractLsb' 16 16).toNat * 2 ^ 16 + (x.extractLsb' 0 16).toNat := by
  have hx := x.isLt
  simp only [BitVec.extractLsb'_toNat, Nat.shiftRight_eq_div_pow]
  omega

/-- Four products of limbs give the full product (rule R82). -/
theorem mulFull32ByLimbs_eq (x y : BitVec 32) : mulFull32ByLimbs x y = x.toNat * y.toNat := by
  rw [toNat_eq_limbs x, toNat_eq_limbs y, mulFull32ByLimbs]
  ring

/-! ### Rotations, shifts, exclusive or -/

/-- Exchanging the halves is the rotation by 32 (rule R83). -/
theorem toWord64_swap (a : Halves) : (Halves.mk a.hi a.lo).toWord64 = rotl a.toWord64 32 := by
  apply BitVec.eq_of_getLsbD_eq
  intro i hi
  rw [getLsbD_rotl _ (by decide) hi, getLsbD_toWord64, getLsbD_toWord64, getLsbD_toWord64]
  by_cases h : i < 32
  · simp [h]
  · simp [h, show i - 32 < 32 by omega]

/-- Each half takes in the bits that the other one loses (rule R83). -/
theorem toWord64_rotlHalvesSmall (a : Halves) {r : Nat} (hr : r ≤ 32) :
    (rotlHalvesSmall a r).toWord64 = rotl a.toWord64 r := by
  apply BitVec.eq_of_getLsbD_eq
  intro i hi
  rw [getLsbD_rotl _ (by omega) hi, getLsbD_toWord64, getLsbD_toWord64, getLsbD_toWord64, rotlHalvesSmall]
  by_cases h : i < 32
  · rw [if_pos h, getLsbD_shiftLeft_add_ushiftRight _ _ hr h]
    grind
  · rw [if_neg h, getLsbD_shiftLeft_add_ushiftRight _ _ hr (by omega)]
    grind

/-- Rotations add up as long as the sum is an amount of the width. -/
theorem rotl_rotl {w : Nat} (x : BitVec w) {r s : Nat} (h : r + s ≤ w) : rotl (rotl x r) s = rotl x (r + s) := by
  apply BitVec.eq_of_getLsbD_eq
  intro i hi
  rw [getLsbD_rotl _ (by omega) hi, getLsbD_rotl _ h hi]
  by_cases his : i < s
  · rw [if_pos his, getLsbD_rotl _ (by omega) (by omega), if_neg (by omega), if_pos (by omega)]
    congr 1
    omega
  · rw [if_neg his, getLsbD_rotl _ (by omega) (by omega)]
    grind

/-- The three arms of rule R83. -/
theorem toWord64_rotl64H (a : Halves) {r : Nat} (hr : r < 64) : (rotl64H a r).toWord64 = rotl a.toWord64 r := by
  rw [rotl64H]
  split_ifs with heq hlt
  · rw [toWord64_swap, heq]
  · exact toWord64_rotlHalvesSmall a hlt.le
  · rw [toWord64_rotlHalvesSmall _ (by omega), toWord64_swap, rotl_rotl _ (by omega), Nat.add_sub_cancel' (by omega)]

/-- From the amount 32 on nothing of the low half is left (rule R84, its last two arms). -/
theorem shr64H_of_ge (a : Halves) {s : Nat} (h : 32 ≤ s) : shr64H a s = ⟨a.hi >>> (s - 32), 0#32⟩ := by
  rw [shr64H, if_neg (by omega)]
  split_ifs with heq
  · rw [heq, Nat.sub_self, BitVec.ushiftRight_zero]
  · rfl

/-- Below 32 the low half takes in the bits that the high half loses; from 32 on it is part of the high half
(rule R84). -/
theorem toWord64_shr64H (a : Halves) (s : Nat) : (shr64H a s).toWord64 = shr a.toWord64 s := by
  apply BitVec.eq_of_getLsbD_eq
  intro i hi
  rw [shr, BitVec.getLsbD_ushiftRight, getLsbD_toWord64, getLsbD_toWord64]
  by_cases hs : s < 32
  · rw [shr64H, if_pos hs]
    by_cases h : i < 32
    · have hlow := getLsbD_shiftLeft_add_ushiftRight a.hi a.lo (Nat.sub_le 32 s) h
      rw [Nat.sub_sub_self hs.le] at hlow
      rw [if_pos h, BitVec.add_comm, hlow]
      grind
    · rw [if_neg h, BitVec.getLsbD_ushiftRight, if_neg (by omega), Nat.add_sub_assoc (by omega)]
  · rw [shr64H_of_ge a (by omega), if_neg (by omega : ¬ s + i < 32)]
    by_cases h : i < 32
    · rw [if_pos h, BitVec.getLsbD_ushiftRight, Nat.sub_add_comm (by omega)]
    · rw [if_neg h, BitVec.getLsbD_zero, BitVec.getLsbD_of_ge a.hi (s + i - 32) (by omega)]

/-- Rule R85. -/
theorem toWord64_xor64H (a b : Halves) : (xor64H a b).toWord64 = a.toWord64 ^^^ b.toWord64 := by
  rw [toWord64_eq_append, toWord64_eq_append, toWord64_eq_append, BitVec.xor_append, xor64H]

/-- Settles O39: every word is the word of its halves, and there the operations agree one by one. -/
theorem wideHelperRefinesThePrimitives : Obligations.WideHelperRefinesThePrimitives := by
  intro a b r _ hr
  rw [toWord64_add64H, toWord64_sub64H, toWord64_mul64H, toWord64_rotl64H _ hr, toWord64_shr64H, toWord64_xor64H,
    toWord64_ofWord64, toWord64_ofWord64]
  exact ⟨rfl, rfl, rfl, rfl, rfl, rfl, mulFull32ByLimbs_eq⟩

end Sys2Proof.Machine
end

section
/-! PROOFS. Seeding (41_seeding.md): what INIT32 and INIT64 leave, and what an engine fresh from `Reset` emits at once
(rule R95). -/

namespace Sys2Proof.Machine
open Sys2Proof

/-! ### `Reset`, spelled out -/

/-- E32 takes the low 32 bits of the seed operand (rule R91). -/
theorem seedForEngine32_eq (seed : Word64) : seedForEngine 32 seed = seed.extractLsb' 0 32 := by
  rw [seedForEngine, trunc, BitVec.setWidth_eq_extractLsb' (by decide)]

/-- `Reset` of E32 with the constants of rule R6 in numbers (rule R90). -/
theorem reset_eq_freshE32 (e : E32) (seed : BitVec 32) : e.reset Config.params32 seed = freshE32 seed e.carry := rfl

/-- `Reset` of E64 with the constants of rule R7 in numbers (rule R90). -/
theorem reset_eq_freshE64 (e : E64) (seed : BitVec 64) : e.reset Config.params64 seed = freshE64 seed e.carry := rfl

/-- Settles O16: INIT32 is `Reset` of E32 with the low seed word, in a state moved on by its three words. -/
theorem init32ConstructsE32 : Obligations.Init32ConstructsE32 := by
  intro seed s
  rw [exec, execInit32, seedForEngine32_eq, reset_eq_freshE32]
  rfl

/-- Settles O17: INIT64 is `Reset` of E64 with the seed, in a state moved on by its three words. -/
theorem init64ConstructsE64 : Obligations.Init64ConstructsE64 := by
  intro seed s
  rw [exec, execInit64, seedForEngine64_eq, reset_eq_freshE64]
  rfl

/-! ### The digest of an engine that has absorbed nothing -/

section fresh
variable {w bs cw : Nat} (P : EngineParams w) (e : Engine w bs cw) (seed : BitVec w)

/-- A fresh engine satisfies rule R15 (rule R90). -/
theorem reset_carryLen_lt (hbs : 0 < bs) : (e.reset P seed).carryLen.toNat < bs := by
  rwa [reset_carryLen, BitVec.toNat_zero]

/-- A fresh engine has absorbed no block (rules R25, R90). -/
theorem absorbedBlock_reset (hbs : 0 < bs) : absorbedBlock (e.reset P seed) = false := by
  rw [absorbedBlock, reset_totalLen, BitVec.toNat_zero]
  exact decide_eq_false hbs.not_ge

end fresh

/-- A count of zero bytes leaves the hash as it is (rule R123). -/
theorem addLength_zero {w : Nat} (h : BitVec w) : addLength 0#64 h = h := by
  rw [addLength, trunc, BitVec.setWidth_zero, BitVec.add_zero]

/-- Of the steps of rule R133 a fresh E32 takes the short start and the avalanche. -/
theorem digestValue32_reset (e : E32) (seed : BitVec 32) :
    digestValue32 (e.reset Config.params32 seed) = avalanche32 (shortStart Config.params32 seed) := by
  have hstart : startValue32 (e.reset Config.params32 seed) = shortStart Config.params32 seed := by
    rw [startValue32, absorbedBlock_reset _ _ _ (by decide), if_neg Bool.false_ne_true, reset_seed]
  rw [digestValue32, hstart, reset_totalLen, addLength_zero, reset_carryLen, BitVec.toNat_zero, tailWalk32_zero]

/-- Of the steps of rule R133 a fresh E64 takes the short start and the avalanche. -/
theorem digestValue64_reset (e : E64) (seed : BitVec 64) :
    digestValue64 (e.reset Config.params64 seed) = avalanche64 (shortStart Config.params64 seed) := by
  have hstart : startValue64 (e.reset Config.params64 seed) = shortStart Config.params64 seed := by
    rw [startValue64, absorbedBlock_reset _ _ _ (by decide), if_neg Bool.false_ne_true, reset_seed]
  rw [digestValue64, hstart, reset_totalLen, addLength_zero, reset_carryLen, BitVec.toNat_zero, tailWalk64_zero]

/-! ### INIT and then DIGEST -/

/-- A command that is no UPDATE cannot overflow the count, so it completes under rule R15 alone (rule R154). -/
theorem exec_of_not_update {i : Instr} {s : State} (hi : ∀ data, i ≠ .update32 data ∧ i ≠ .update64 data)
    (hr : inRange i s) : exec i s = .next (State.after i s) := exec_of_inRange (not_overflows hi) hr

/-- DIGEST32 right after INIT32 finds a fresh E32 and appends its digest (rules R92, R95, R133). -/
theorem after_digest32_after_init32_out (seed : Word64) (s : State) :
    (State.after .digest32 (State.after (.init32 seed) s)).out =
      s.out ++ [⟨0#1, zext 64 (avalanche32 (shortStart Config.params32 (seedForEngine 32 seed)))⟩] := by
  rw [after_out, after_out, recordsOf, recordsOf, List.append_nil, State.after, moved_e32, engine32After,
    digestValue32_reset]

/-- DIGEST64 right after INIT64 finds a fresh E64 and appends its digest (rules R93, R95, R133). -/
theorem after_digest64_after_init64_out (seed : Word64) (s : State) :
    (State.after .digest64 (State.after (.init64 seed) s)).out =
      s.out ++ [⟨1#1, avalanche64 (shortStart Config.params64 (seedForEngine 64 seed))⟩] := by
  rw [after_out, after_out, recordsOf, recordsOf, List.append_nil, State.after, moved_e64, engine64After,
    digestValue64_reset]

/-- Settles O31: INIT leaves a fresh engine, whose digest is the avalanche of `PRIME5` added to the seed; for seed 0 that
is a closed number. -/
theorem digestRightAfterInitIsTheEmptyDigest : Obligations.DigestRightAfterInitIsTheEmptyDigest := by
  refine ⟨fun s seed => ?_, fun s seed => ?_, by decide, by decide⟩
  · have hready : inRange .digest32 (State.after (.init32 seed) s) := reset_carryLen_lt _ _ _ (by decide)
    refine ⟨_, _, exec_of_not_update (fun _ => ⟨nofun, nofun⟩) trivial,
      exec_of_not_update (fun _ => ⟨nofun, nofun⟩) hready, ?_⟩
    rw [after_digest32_after_init32_out, zext_toNat, seedForEngine32_eq]
    rfl
  · have hready : inRange .digest64 (State.after (.init64 seed) s) := reset_carryLen_lt _ _ _ (by decide)
    refine ⟨_, _, exec_of_not_update (fun _ => ⟨nofun, nofun⟩) trivial,
      exec_of_not_update (fun _ => ⟨nofun, nofun⟩) hready, ?_⟩
    rw [after_digest64_after_init64_out, seedForEngine64_eq]
    rfl

end Sys2Proof.Machine
end

section
/-! PROOFS. Chunking (42_ingest.md rule R106): `Update` calls one after another absorb the concatenation of their bytes, and
what an engine has absorbed since its `Reset` determines its live part. -/

namespace Sys2Proof.Machine
open Sys2Proof

section absorbed
variable {w bs cw : Nat} {P : EngineParams w} {seed : BitVec w} {B : List Byte}

/-- Seed and absorbed bytes determine the live part of an engine (rule R106 (a) to (e)). -/
theorem Absorbed.live_eq {e f : Engine w bs cw} (he : Absorbed P e seed B) (hf : Absorbed P f seed B) :
    e.live = f.live := by
  refine engine_live_eq_iff.mpr ⟨?_, ?_, ?_, ?_, BitVec.eq_of_toNat_eq ?_⟩
  · rw [he.seed, hf.seed]
  · rw [he.lanes, hf.lanes]
  · rw [he.carry, hf.carry]
  · rw [he.count, hf.count]
  · rw [he.total, hf.total]

/-- `Update` calls absorb the concatenation of their bytes behind what the engine has absorbed (rule R106). -/
theorem absorbed_feed (hbs : 0 < bs) (hcw : bs < 2 ^ cw) {chunks : List (List Byte)} {e : Engine w bs cw}
    (h : Absorbed P e seed B) (ht : B.length + chunks.flatten.length < 2 ^ 64) :
    Absorbed P (feed P e chunks) seed (B ++ chunks.flatten) := by
  induction chunks generalizing e B with
  | nil => rwa [List.flatten_nil, List.append_nil]
  | cons d ds ih =>
    rw [List.flatten_cons, List.length_append] at ht
    have hfirst := absorbed_update P e seed B d hbs hcw h (by omega)
    rw [List.flatten_cons, ← List.append_assoc]
    exact ih hfirst (by rw [List.length_append]; omega)

/-- `Update` calls after a `Reset` absorb the concatenation of their bytes (rule R106). -/
theorem absorbed_feed_reset (hbs : 0 < bs) (hcw : bs < 2 ^ cw) (e : Engine w bs cw) {chunks : List (List Byte)}
    (ht : chunks.flatten.length < 2 ^ 64) :
    Absorbed P (feed P (e.reset P seed) chunks) seed chunks.flatten :=
  absorbed_feed hbs hcw (absorbed_reset P e seed) (by rwa [List.length_nil, Nat.zero_add])

/-- Two ways of cutting the same bytes leave the same live part (rule R106). -/
theorem feed_reset_live_eq (hbs : 0 < bs) (hcw : bs < 2 ^ cw) (e f : Engine w bs cw) {chunks chunks' : List (List Byte)}
    (ht : chunks.flatten.length < 2 ^ 64) (hcut : chunks.flatten = chunks'.flatten) :
    (feed P (e.reset P seed) chunks).live = (feed P (f.reset P seed) chunks').live :=
  (absorbed_feed_reset hbs hcw e ht).live_eq (hcut ▸ absorbed_feed_reset hbs hcw f (hcut ▸ ht))

end absorbed

/-- Settles O26: the engine is what the bytes determine, by induction on the calls, and a digest reads its live part only. -/
theorem chunkingDoesNotMatter : Obligations.ChunkingDoesNotMatter := by
  refine ⟨fun e seed chunks ht => ?_, fun e seed chunks ht => ?_, fun e e' seed chunks chunks' ht hcut => ?_,
    fun e e' seed chunks chunks' ht hcut => ?_⟩
  · exact absorbed_feed_reset (by decide) (by decide) e ht
  · exact absorbed_feed_reset (by decide) (by decide) e ht
  · exact digestValue32_congr (feed_reset_live_eq (by decide) (by decide) e e' ht hcut)
  · exact digestValue64_congr (feed_reset_live_eq (by decide) (by decide) e e' ht hcut)

end Sys2Proof.Machine
end

section
/-! PROOFS. The block-mixer state machine (42_ingest.md rule R104): which phases it passes through on its way from one state
of the sequencer to another, put together arm by arm. -/

namespace Sys2Proof.Machine
open Sys2Proof

/-- From `m` the state machine passes through the phases `path`, the phase of `m` first, and then stands in `m'`
(rule R104). -/
structure Passes {w bs cw : Nat} (P : EngineParams w) (data : List Byte) (m : UpdateSeq w bs cw) (path : List Phase)
    (m' : UpdateSeq w bs cw) : Prop where
  run : phaseRun P data path.length m = m'
  trace : phaseTrace P data path.length m = path

section phases
variable {w bs cw : Nat} {P : EngineParams w} {data : List Byte}

namespace Passes
variable {m m' m'' : UpdateSeq w bs cw} {path path' : List Phase}

theorem nil (m : UpdateSeq w bs cw) : Passes P data m [] m := ⟨rfl, rfl⟩

/-- One phase in front. -/
theorem cons (h : Passes P data (phaseStep P data m) path m') : Passes P data m (m.phase :: path) m' :=
  ⟨h.run, congrArg (m.phase :: ·) h.trace⟩

/-- The phases behind the first one. -/
theorem tail {x : Phase} (h : Passes P data m (x :: path) m') :
    m.phase = x ∧ Passes P data (phaseStep P data m) path m' := by
  obtain ⟨hx, htrace⟩ := List.cons.inj h.trace
  exact ⟨hx, h.run, htrace⟩

theorem append (h : Passes P data m path m') (h' : Passes P data m' path' m'') :
    Passes P data m (path ++ path') m'' := by
  induction path generalizing m with
  | nil => obtain rfl := h.run; exact h'
  | cons x path ih =>
    obtain ⟨rfl, hrest⟩ := h.tail
    exact (ih hrest).cons

end Passes

/-- Every `Update` begins with `U_IDLE` and `U_COUNT` (rule R104). -/
theorem passes_idle_count {e : Engine w bs cw} {m m' : UpdateSeq w bs cw} {path : List Phase}
    (hcount : phaseStep P data ⟨.count, e, 0⟩ = m) (h : Passes P data m path m') :
    Passes P data ⟨.idle, e, 0⟩ (.idle :: .count :: path) m' := by
  subst hcount
  exact h.cons.cons

/-- From the cursor `p` on the state machine mixes the whole blocks left, one phase each, and stashes the rest. -/
theorem passes_mixd_stash (hbs : 0 < bs) (e : Engine w bs cw) (p : Nat) :
    Passes P data ⟨afterMix bs data.length p, e, p⟩ (List.replicate ((data.length - p) / bs) .mixd ++ [.stash])
      ⟨.idle, (Engine.mixDirectLoop P data ((data.length - p) / bs) p e).stash data (p + (data.length - p) / bs * bs),
        data.length⟩ := by
  generalize hk : (data.length - p) / bs = k
  induction k generalizing p e with
  | zero =>
    have hlast : ¬ bs ≤ data.length - p := by rwa [Nat.not_le, ← Nat.div_eq_zero_iff_lt hbs]
    rw [afterMix, if_neg hlast, Nat.zero_mul, Nat.add_zero]
    exact (Passes.nil _).cons
  | succ k ih =>
    have hmore : bs ≤ data.length - p := (Nat.div_pos_iff.mp (by omega)).2
    have hrest : (data.length - (p + bs)) / bs = k := by
      rw [Nat.div_eq_sub_div hbs hmore] at hk
      rw [← Nat.sub_sub, Nat.succ.inj hk]
    rw [afterMix, if_pos hmore, Nat.succ_mul, Nat.add_comm (k * bs), ← Nat.add_assoc]
    exact (ih (e.mixDirect P data p) (p + bs) hrest).cons

/-- Where a block completes, the state machine counts, then fills and mixes the carry if it holds bytes, and stands at the
first input byte behind (rules R103, R104). -/
theorem passes_flushCarry {e : Engine w bs cw} (h : onlyBuffers e data.length = false) :
    Passes P data ⟨.idle, e, 0⟩ ([.idle, .count] ++ if e.carryLen.toNat = 0 then [] else [.fill, .mixc])
      ⟨afterMix bs data.length e.fillCount, (e.countBytes data.length).flushCarry P data, e.fillCount⟩ := by
  have hcount : phaseStep P data ⟨.count, e, 0⟩ =
      ⟨if e.carryLen.toNat = 0 then afterMix bs data.length 0 else .fill, e.countBytes data.length, 0⟩ := by
    simp only [phaseStep, h, Bool.false_eq_true, if_false]
  by_cases h0 : e.carryLen.toNat = 0
  · rw [if_pos h0] at hcount
    rw [if_pos h0, List.append_nil, Engine.fillCount, if_pos h0, Engine.flushCarry, countBytes_carryLen, if_pos h0]
    exact passes_idle_count hcount (.nil _)
  · rw [if_neg h0] at hcount
    rw [if_neg h0, Engine.fillCount, if_neg h0, Engine.flushCarry, countBytes_carryLen, if_neg h0]
    exact passes_idle_count hcount (Passes.nil _).cons.cons

/-- The arm of `Update` that mixes: the carry is flushed, the whole blocks left are mixed, the rest is stashed (rule
R103). -/
theorem update_of_not_onlyBuffers {e : Engine w bs cw} (h : onlyBuffers e data.length = false) : e.update P data =
    (Engine.mixDirectLoop P data ((data.length - e.fillCount) / bs) e.fillCount
      ((e.countBytes data.length).flushCarry P data)).stash data
        (e.fillCount + (data.length - e.fillCount) / bs * bs) := by
  rw [Engine.update, h, if_neg Bool.false_ne_true]

/-- The state machine, started idle, passes through the phases of rule R104 and is back to idle with the engine of
`Update`. -/
theorem passes_updatePath (hbs : 0 < bs) (e : Engine w bs cw) (data : List Byte) :
    Passes P data ⟨.idle, e, 0⟩ (updatePath e data.length) ⟨.idle, e.update P data, data.length⟩ := by
  cases h : onlyBuffers e data.length with
  | true =>
    have hcount : phaseStep P data ⟨.count, e, 0⟩ = ⟨.append, e.countBytes data.length, 0⟩ := by
      simp only [phaseStep, h, if_true]
    rw [updatePath, h, if_pos rfl, Engine.update, h, if_pos rfl]
    exact passes_idle_count hcount (Passes.nil _).cons
  | false =>
    rw [updatePath, h, if_neg Bool.false_ne_true, update_of_not_onlyBuffers h, List.append_assoc]
    exact (passes_flushCarry h).append (passes_mixd_stash hbs _ _)

/-- The blocks mixed on the way: the carry's, if it holds bytes, and those straight from the input (rule R187). -/
theorem count_mix_updatePath {e : Engine w bs cw} (hc : e.carryLen.toNat < bs) (n : Nat) :
    (updatePath e n).count .mixc + (updatePath e n).count .mixd = (e.carryLen.toNat + n) / bs := by
  rw [updatePath, onlyBuffers, Engine.fillCount]
  by_cases hb : e.carryLen.toNat + n < bs
  · rw [decide_eq_true hb, if_pos rfl, Nat.div_eq_of_lt hb]
    rfl
  · rw [decide_eq_false hb, if_neg Bool.false_ne_true]
    by_cases h0 : e.carryLen.toNat = 0
    · simp [h0, List.count_replicate]
    · have hdiv : (e.carryLen.toNat + n) / bs = (n - (bs - e.carryLen.toNat)) / bs + 1 := by
        rw [← Nat.add_div_right _ (by omega)]
        congr 1
        omega
      rw [if_neg h0, if_neg h0, hdiv, Nat.add_comm _ 1]
      simp [List.count_replicate]

end phases

/-- Settles O27: the way through the phases is put together arm by arm, and its mixing phases are counted. -/
theorem phaseMachineComputesUpdate : Obligations.PhaseMachineComputesUpdate := by
  refine ⟨fun e data hc => ?_, fun e data hc => ?_⟩
  · obtain ⟨hrun, htrace⟩ := passes_updatePath (P := Config.params32) (by decide) e data
    exact ⟨hrun, htrace, count_mix_updatePath hc data.length⟩
  · obtain ⟨hrun, htrace⟩ := passes_updatePath (P := Config.params64) (by decide) e data
    exact ⟨hrun, htrace, count_mix_updatePath hc data.length⟩

end Sys2Proof.Machine
end

section
/-! PROOFS. UPDATE32 and UPDATE64 as commands (42_ingest.md rules R103, R105, R107, R108, R112): what they do to the engine is
`Engine.update`, of which Laws/Ingest.lean says everything. -/

namespace Sys2Proof.Machine
open Sys2Proof

/-! ### The count -/

/-- When UPDATE32 overflows (rule R154). -/
theorem overflows_update32 (data : List Byte) (s : State) :
    overflows (.update32 data) s ↔ 2 ^ 64 ≤ s.e32.totalLen.toNat + data.length := by
  simp [overflows]

/-- When UPDATE64 overflows (rule R154). -/
theorem overflows_update64 (data : List Byte) (s : State) :
    overflows (.update64 data) s ↔ 2 ^ 64 ≤ s.e64.totalLen.toNat + data.length := by
  simp [overflows]

/-- Settles O11: an UPDATE that overflows raises the fault; of the two things a command with a next state can do the other
one, completion, keeps `STATUS`. -/
theorem lengthOverflowIsRaised : Obligations.LengthOverflowIsRaised := by
  refine ⟨fun s w data hw => ⟨fun h => ?_, fun h => ?_⟩, fun i s t h => ?_⟩
  · rw [exec_of_overflows ((overflows_update32 data s).mpr h), raise_eq hw]
    rfl
  · rw [exec_of_overflows ((overflows_update64 data s).mpr h), raise_eq hw]
    rfl
  · obtain ⟨hover, _⟩ | ⟨_, _, a, b, l, rfl, _⟩ := exec_next h
    · exact .inr hover
    · exact .inl (moved_status s a b l _)

/-! ### An UPDATE that completes -/

/-- A command that emits nothing, as the fields it writes. -/
theorem moved_nil (s : State) (a : E32) (b : E64) (n : Nat) :
    s.moved a b [] n = { s with e32 := a, e64 := b, pc := s.pc + BitVec.ofNat 32 n } := by
  rw [State.moved, List.append_nil]

/-- UPDATE32 under rule R15 and without overflow (rule R107). -/
theorem exec_update32 {data : List Byte} {s : State} (hc : s.e32.carryLen.toNat < 16)
    (ht : s.e32.totalLen.toNat + data.length < 2 ^ 64) : exec (.update32 data) s =
      .next { s with
        e32 := s.e32.update Config.params32 data
        pc := s.pc + BitVec.ofNat 32 (1 + (data.length + 3) / 4) } := by
  have ho : ¬ overflows (.update32 data) s := (overflows_update32 data s).not.mpr ht.not_ge
  rw [exec_of_inRange ho hc, State.after, recordsOf, moved_nil]
  rfl

/-- UPDATE64 under rule R15 and without overflow (rule R108). -/
theorem exec_update64 {data : List Byte} {s : State} (hc : s.e64.carryLen.toNat < 32)
    (ht : s.e64.totalLen.toNat + data.length < 2 ^ 64) : exec (.update64 data) s =
      .next { s with
        e64 := s.e64.update Config.params64 data
        pc := s.pc + BitVec.ofNat 32 (1 + (data.length + 3) / 4) } := by
  have ho : ¬ overflows (.update64 data) s := (overflows_update64 data s).not.mpr ht.not_ge
  rw [exec_of_inRange ho hc, State.after, recordsOf, moved_nil]
  rfl

/-- Settles O18: the new E32 is `Update` of the old one. -/
theorem update32AbsorbsItsBytes : Obligations.Update32AbsorbsItsBytes := fun data s hc ht =>
  ⟨s.e32.update Config.params32 data, exec_update32 hc ht, update_spec _ _ data (by decide) hc ht⟩

/-- Settles O19: the new E64 is `Update` of the old one. -/
theorem update64AbsorbsItsBytes : Obligations.Update64AbsorbsItsBytes := fun data s hc ht =>
  ⟨s.e64.update Config.params64 data, exec_update64 hc ht, update_spec _ _ data (by decide) hc ht⟩

/-- Settles O20: the new engine is `Update` of the old one, whose byte writes stay in the stretch of its arm. -/
theorem updateKeepsUnwrittenCarryBytes : Obligations.UpdateKeepsUnwrittenCarryBytes := by
  refine ⟨fun data s t j hc ht h hj => ?_, fun data s t j hc ht h hj => ?_⟩
  · rw [exec_update32 hc ht] at h
    obtain rfl := Host.Outcome.next.inj h
    exact update_unwritten _ _ data j hc hj
  · rw [exec_update64 hc ht] at h
    obtain rfl := Host.Outcome.next.inj h
    exact update_unwritten _ _ data j hc hj

/-- Settles O25: no bytes cannot overflow the count, and `Update` of no bytes leaves the engine. -/
theorem zeroLengthUpdateIsANoOp : Obligations.ZeroLengthUpdateIsANoOp := by
  refine fun s => ⟨fun hc => ?_, fun hc => ?_⟩
  · rw [exec_update32 hc (data := []) s.e32.totalLen.isLt, update_nil _ _ hc]
    rfl
  · rw [exec_update64 hc (data := []) s.e64.totalLen.isLt, update_nil _ _ hc]
    rfl

end Sys2Proof.Machine
end

section
/-! PROOFS. The count in a run from hardware reset (42_ingest.md rule R112): every byte absorbed stands in a word of the stream
that the run has passed, so four times `pc` bounds both counts, far below `2^64`. -/

namespace Sys2Proof.Machine
open Sys2Proof

/-! ### Runs -/

/-- What every step keeps, every run keeps (rule R160). -/
theorem runSteps_keeps {p : State → Prop} (hstep : ∀ s t, p s → step s = .next t → p t) {k : Nat} {s t : State}
    (hs : p s) (h : runSteps k s = .next t) : p t := by
  induction k generalizing s with
  | zero => exact Host.Outcome.next.inj h ▸ hs
  | succ k ih =>
    rw [runSteps] at h
    cases hu : step s with
    | next u => rw [hu] at h; exact ih (hstep s u hs hu) h
    | fault f => rw [hu] at h; cases h
    | refused r => rw [hu] at h; cases h

/-! ### What a command adds to a count -/

/-- A command carries at most four bytes a word (rule R50). -/
theorem payload_length_le (i : Instr) : i.payload.length ≤ 4 * i.cmdlen := by
  rw [Instr.cmdlen, payloadWordCount_payload]
  omega

/-- `Update` adds at most the number of bytes, exactly that where the count does not wrap (rule R103). -/
theorem update_totalLen_le {w bs cw : Nat} (P : EngineParams w) (e : Engine w bs cw) (data : List Byte) :
    (e.update P data).totalLen.toNat ≤ e.totalLen.toNat + data.length := by
  rw [update_totalLen, BitVec.toNat_add, BitVec.toNat_ofNat, Nat.add_mod_mod]
  exact Nat.mod_le _ _

/-- A command adds at most its payload to the count of E32. -/
theorem engine32After_totalLen_le (i : Instr) (e : E32) :
    (engine32After i e).totalLen.toNat ≤ e.totalLen.toNat + i.payload.length := by
  cases i with
  | init32 seed => rw [engine32After, reset_totalLen]; exact Nat.zero_le _
  | update32 data => exact update_totalLen_le _ e data
  | digest32 => rw [engine32After, reseed_totalLen]; exact Nat.zero_le _
  | hash32 seed data => rw [engine32After, reseed_totalLen]; exact Nat.zero_le _
  | nop | init64 _ | update64 _ | digest64 | hash64 _ _ => exact Nat.le_add_right _ _

/-- A command adds at most its payload to the count of E64. -/
theorem engine64After_totalLen_le (i : Instr) (e : E64) :
    (engine64After i e).totalLen.toNat ≤ e.totalLen.toNat + i.payload.length := by
  cases i with
  | init64 seed => rw [engine64After, reset_totalLen]; exact Nat.zero_le _
  | update64 data => exact update_totalLen_le _ e data
  | digest64 => rw [engine64After, reseed_totalLen]; exact Nat.zero_le _
  | hash64 seed data => rw [engine64After, reseed_totalLen]; exact Nat.zero_le _
  | nop | init32 _ | update32 _ | digest32 | hash32 _ _ => exact Nat.le_add_right _ _

/-! ### The invariant -/

/-- Both counts are at most four bytes for each word passed, and `LENGTH_OVERFLOW` has not been raised. -/
structure State.Counted (s : State) : Prop where
  inv : s.Inv
  count32 : s.e32.totalLen.toNat ≤ 4 * s.pc.toNat
  count64 : s.e64.totalLen.toNat ≤ 4 * s.pc.toNat
  cause : statusCause s.status ≠ 4#4

/-- Hardware reset leaves both counts zero (rule R170). -/
theorem hardwareReset_counted (s : State) {cs : List Word} (a : Vector Byte 16) (b : Vector Byte 32)
    (hcs : cs.length ≤ Config.cslenMax) : (s.hardwareReset cs a b).Counted where
  inv := (hardwareReset_launchable s a b hcs).inv
  count32 := by rw [State.hardwareReset, reset_totalLen]; exact Nat.zero_le _
  count64 := by rw [State.hardwareReset, reset_totalLen]; exact Nat.zero_le _
  cause := by
    have hstatus : (s.hardwareReset cs a b).status = 0#32 := rfl
    rw [hstatus]
    decide

/-- No fault of decoding has the cause of `LENGTH_OVERFLOW` (rules R151 to R154). -/
theorem causeOfDecode_ne (f : DecodeFault) : (causeOfDecode f).code ≠ 4#4 := by
  cases f <;> decide

section decoded
variable {s : State} {w : Word} {rest : List Word} {i : Instr}

/-- The payload of a decoded command does not take a count to `2^64`: `CSLEN` is below `2^32` (rules R8, R112). -/
theorem State.Counted.not_overflows (h : s.Counted) (hd : s.cs.drop s.pc.toNat = w :: rest)
    (hi : decode w rest = .ok i) : ¬ overflows i s := by
  have hcs : s.cs.length ≤ 4294967295 := of_decide_eq_true h.inv.memory
  obtain ⟨_, hle⟩ := pc_past_decoded h.inv.memory hd hi
  have hpay := payload_length_le i
  have h32 := h.count32
  have h64 := h.count64
  rintro (⟨data, rfl, hover⟩ | ⟨data, rfl, hover⟩)
  · rw [Instr.payload] at hpay; omega
  · rw [Instr.payload] at hpay; omega

/-- A count that was within four bytes for each word passed still is when the payload of a decoded command is added: `pc`
moves past the words it stands in. -/
theorem count_le_past_decoded (hm : Memory.wf s = true) (hd : s.cs.drop s.pc.toNat = w :: rest)
    (hi : decode w rest = .ok i) {n n' : Nat} (hn : n ≤ 4 * s.pc.toNat) (hn' : n' ≤ n + i.payload.length) :
    n' ≤ 4 * (s.pc + BitVec.ofNat 32 i.cmdlen).toNat := by
  have hpay := payload_length_le i
  rw [(pc_past_decoded hm hd hi).1]
  omega

end decoded

/-- Each of the three things a step can do keeps the invariant. -/
theorem step_counted (s t : State) (h : s.Counted) (hs : step s = .next t) : t.Counted := by
  have hinv : t.Inv := stepKeepsTheInvariant s t h.inv hs
  obtain ⟨_, ⟨_, rfl⟩ | ⟨w, rest, f, _, _, rfl⟩ | ⟨w, rest, i, hd, hi, hx⟩⟩ := step_next hs
  · refine ⟨hinv, h.count32, h.count64, ?_⟩
    rw [endRun_status, statusCause_setStatusMode]
    exact h.cause
  · refine ⟨hinv, h.count32, h.count64, ?_⟩
    rw [faultState_status, faultStatus_cause]
    exact causeOfDecode_ne f
  · obtain ⟨hover, _⟩ | ⟨_, _, a, b, l, rfl, ha, hb, _⟩ := exec_next hx
    · exact absurd hover (h.not_overflows hd hi)
    · exact ⟨hinv,
        count_le_past_decoded h.inv.memory hd hi h.count32 (ha ▸ engine32After_totalLen_le i s.e32),
        count_le_past_decoded h.inv.memory hd hi h.count64 (hb ▸ engine64After_totalLen_le i s.e64), h.cause⟩

/-- Settles O50: hardware reset meets the invariant, and every step keeps it. -/
theorem noLengthOverflowFromHardwareReset : Obligations.NoLengthOverflowFromHardwareReset := by
  intro s t cs a b k hcs h
  have ht : t.Counted := runSteps_keeps step_counted (hardwareReset_counted s a b hcs) h
  exact ht.cause

end Sys2Proof.Machine
end

section
/-! PROOFS. Rounds, block mixes and the lanes (42_ingest.md rules R100 to R102, 43_finalize.md rules R120, R121): what a lane
depends on, and the worked examples. -/

namespace Sys2Proof.Machine
open Sys2Proof

/-- A lane after a round depends on its old value and on the bytes its word is read from (rules R101, R102). -/
theorem laneRound_memRead_congr {w : Nat} (P : EngineParams w) {buf buf' : List Byte} {off off' q : Nat}
    {acc acc' : BitVec w} (h : (buf.drop off).take q = (buf'.drop off').take q) (hacc : acc = acc') :
    laneRound P acc (memRead w buf off q) = laneRound P acc' (memRead w buf' off' q) := by
  rw [memRead_congr w h, hacc]

/-- Settles O28: each lane of a block mix is a round of that lane with the word of its quarter. -/
theorem lanesMixIndependently : Obligations.LanesMixIndependently :=
  ⟨fun _ _ _ _ _ _ => ⟨laneRound_memRead_congr _, laneRound_memRead_congr _, laneRound_memRead_congr _,
      laneRound_memRead_congr _⟩,
    fun _ _ _ _ _ _ => ⟨laneRound_memRead_congr _, laneRound_memRead_congr _, laneRound_memRead_congr _,
      laneRound_memRead_congr _⟩⟩

/-- A zero lane changes nothing before the multiplication: its round is zero (the corner case of rule R121). -/
theorem mergeRound_zero (h : BitVec 64) :
    mergeRound h 0#64 = h * Config.params64.prime1 + Config.params64.prime4 := by
  have hround : laneRound Config.params64 0#64 0#64 = 0#64 := by decide
  rw [mergeRound, hround, BitVec.xor_zero]

/-- Settles O57: the examples are checks of closed words, the last corner case is about every `h`. -/
theorem laneStepsMatchTheWorkedExamples : Obligations.LaneStepsMatchTheWorkedExamples := by
  unfold Obligations.LaneStepsMatchTheWorkedExamples
  constructorm* _ ∧ _
  on_goal -1 => exact mergeRound_zero
  all_goals decide

end Sys2Proof.Machine
end

section
/-! PROOFS. Finalize (43_finalize.md): DIGEST32 and DIGEST64 as commands (rules R133 to R136), and the digest as a function
of the seed and of the bytes absorbed since the last reset (rules R133, R137). -/

namespace Sys2Proof.Machine
open Sys2Proof

/-! ### The steps of `Digest`, spelled out -/

/-- The count enters the hash at the engine's width (rule R123). -/
theorem addLength_eq {w : Nat} (totalLen : Word64) (h : BitVec w) :
    addLength totalLen h = h + BitVec.ofNat w totalLen.toNat := by
  rw [addLength, trunc, BitVec.ofNat_toNat]

/-- Steps 1 and 2 of rule R133 on E32, by the count itself. -/
theorem startValue32_eq (e : E32) : startValue32 e =
    if 16 ≤ e.totalLen.toNat then converge e.lanes else shortStart Config.params32 e.seed := by
  simp only [startValue32, absorbedBlock, decide_eq_true_eq]

/-- Steps 1 and 2 of rule R133 on E64, by the count itself. -/
theorem startValue64_eq (e : E64) : startValue64 e =
    if 32 ≤ e.totalLen.toNat then mergeAll e.lanes (converge e.lanes) else shortStart Config.params64 e.seed := by
  simp only [startValue64, absorbedBlock, decide_eq_true_eq]

/-! ### DIGEST as a command -/

/-- DIGEST32 under rule R15: one record, E32 reset with its own seed (rules R133, R135). -/
theorem exec_digest32 {s : State} (hc : s.e32.carryLen.toNat < 16) : exec .digest32 s =
    .next { s with
      e32 := s.e32.reset Config.params32 s.e32.seed
      out := s.out ++ [⟨0#1, zext 64 (digestValue32 s.e32)⟩]
      pc := s.pc + 1#32 } :=
  exec_of_not_update (fun _ => ⟨nofun, nofun⟩) hc

/-- DIGEST64 under rule R15: one record, E64 reset with its own seed (rules R133, R136). -/
theorem exec_digest64 {s : State} (hc : s.e64.carryLen.toNat < 32) : exec .digest64 s =
    .next { s with
      e64 := s.e64.reset Config.params64 s.e64.seed
      out := s.out ++ [⟨1#1, digestValue64 s.e64⟩]
      pc := s.pc + 1#32 } :=
  exec_of_not_update (fun _ => ⟨nofun, nofun⟩) hc

/-- Settles O21: the completed DIGEST32, with the steps of its digest and the constants of `Reset` in numbers. -/
theorem digest32EmitsAndReseeds : Obligations.Digest32EmitsAndReseeds := by
  intro s hc
  rw [exec_digest32 hc, reset_eq_freshE32, zext_toNat, digestValue32, addLength_eq, startValue32_eq]
  rfl

/-- Settles O22: the completed DIGEST64, with the steps of its digest and the constants of `Reset` in numbers. -/
theorem digest64EmitsAndReseeds : Obligations.Digest64EmitsAndReseeds := by
  intro s hc
  rw [exec_digest64 hc, reset_eq_freshE64, digestValue64, addLength_eq, startValue64_eq, BitVec.ofNat_toNat,
    BitVec.setWidth_eq]
  rfl

/-! ### The digest of what an engine has absorbed -/

section absorbed
variable {w bs cw : Nat} {P : EngineParams w} {e : Engine w bs cw} {seed : BitVec w} {B : List Byte}

/-- The first `carryLen` carry bytes are the bytes behind the last whole block (rule R106 (b), (c)). -/
theorem Absorbed.take_carry (h : Absorbed P e seed B) :
    e.carry.toList.take (B.length % bs) = (B.drop (B.length / bs * bs)).take (B.length % bs) := by
  have hlive : e.carry.toList.take (B.length % bs) = B.drop (B.length / bs * bs) := h.count ▸ h.carry
  rw [hlive, List.take_of_length_le]
  rw [List.length_drop, sub_div_mul]

/-- After a digest an engine has absorbed nothing, under the same seed (rule R134). -/
theorem Absorbed.reseed (h : Absorbed P e seed B) : Absorbed P (e.reseed P) seed [] := by
  rw [reseed_eq, h.seed]
  exact absorbed_reset P e seed

/-- An `Update` of an engine that has absorbed nothing absorbs its bytes (rule R106). -/
theorem Absorbed.update_first (h : Absorbed P e seed []) (hbs : 0 < bs) (hcw : bs < 2 ^ cw) {data : List Byte}
    (hd : data.length < 2 ^ 64) : Absorbed P (e.update P data) seed data := by
  have hupdate := absorbed_update P e seed [] data hbs hcw h (by rwa [List.length_nil, Nat.zero_add])
  rwa [List.nil_append] at hupdate

/-- A digest after an `Update` returns an engine that had absorbed nothing to where it was, but for dead carry bytes
(rule R134). -/
theorem Absorbed.reseed_update_live (h : Absorbed P e seed []) (hbs : 0 < bs) (hcw : bs < 2 ^ cw) {data : List Byte}
    (hd : data.length < 2 ^ 64) : ((e.update P data).reseed P).live = e.live :=
  (h.update_first hbs hcw hd).reseed.live_eq h

/-- So the same `Update` after that digest leaves what it left before (rule R137). -/
theorem Absorbed.update_again_live (h : Absorbed P e seed []) (hbs : 0 < bs) (hcw : bs < 2 ^ cw) {data : List Byte}
    (hd : data.length < 2 ^ 64) : (((e.update P data).reseed P).update P data).live = (e.update P data).live :=
  have hfirst := h.update_first hbs hcw hd
  (hfirst.reseed.update_first hbs hcw hd).live_eq hfirst

end absorbed

/-- The digest of E32 is that of the bytes it has absorbed (rules R106, R133). -/
theorem digestValue32_of_absorbed {e : E32} {seed : BitVec 32} {B : List Byte} (h : Absorbed Config.params32 e seed B) :
    digestValue32 e = xxh32 seed B := by
  rw [digestValue32, startValue32_eq, addLength_eq, h.count, tailWalk32_congr h.take_carry, h.total, h.lanes, h.seed]
  rfl

/-- The digest of E64 is that of the bytes it has absorbed (rules R106, R133). -/
theorem digestValue64_of_absorbed {e : E64} {seed : BitVec 64} {B : List Byte} (h : Absorbed Config.params64 e seed B) :
    digestValue64 e = xxh64 seed B := by
  rw [digestValue64, startValue64_eq, addLength_eq, h.count, tailWalk64_congr h.take_carry, h.total, h.lanes, h.seed]
  rfl

/-- Settles O29: `Digest` reads of an engine what rule R106 gives from seed and bytes. -/
theorem digestIsAFunctionOfSeedAndBytes : Obligations.DigestIsAFunctionOfSeedAndBytes :=
  ⟨fun _ _ _ => digestValue32_of_absorbed, fun _ _ _ => digestValue64_of_absorbed⟩

/-- Settles O30: both digests are taken of engines with equal live parts, and the reset after the first one restores the
live part the engine had. -/
theorem engineIsReusableAfterDigest : Obligations.EngineIsReusableAfterDigest := by
  refine ⟨fun e seed data hd h => ?_, fun e seed data hd h => ?_⟩
  · exact ⟨digestValue32_congr (h.update_again_live (by decide) (by decide) hd),
      h.reseed_update_live (by decide) (by decide) hd⟩
  · exact ⟨digestValue64_congr (h.update_again_live (by decide) (by decide) hd),
      h.reseed_update_live (by decide) (by decide) hd⟩

end Sys2Proof.Machine
end

section
/-! PROOFS. The steps of finalizing (43_finalize.md rules R122 to R132): nothing is lost in an avalanche, and the worked
examples. -/

namespace Sys2Proof.Machine
open Sys2Proof

/-! ### The avalanche -/

/-- A number that is its own right shift is zero: a shift makes every other number smaller. -/
theorem eq_zero_of_eq_shr {w s : Nat} (hs : 0 < s) {x : BitVec w} (h : x = shr x s) : x = 0#w := by
  have hdiv : x.toNat = x.toNat / 2 ^ s := by rw [← toNat_shr, ← h]
  refine BitVec.eq_of_toNat_eq ?_
  by_contra hne
  exact (Nat.div_lt_self (Nat.pos_of_ne_zero hne) (Nat.one_lt_two_pow hs.ne')).ne' hdiv

/-- Of two words that agree after an exclusive or with their own shifts, the difference is its own shift. -/
theorem xor_shr_injective {w s : Nat} (hs : 0 < s) : Function.Injective fun x : BitVec w => x ^^^ shr x s := by
  intro x y h
  have hdiff : x ^^^ y ^^^ (shr x s ^^^ shr y s) = 0#w := by
    calc x ^^^ y ^^^ (shr x s ^^^ shr y s) = x ^^^ shr x s ^^^ (y ^^^ shr y s) := by ac_rfl
      _ = 0#w := BitVec.xor_eq_zero_iff.mpr h
  have hshift : x ^^^ y = shr (x ^^^ y) s := by
    rw [shr, BitVec.ushiftRight_xor_distrib]
    exact BitVec.xor_eq_zero_iff.mp hdiff
  exact BitVec.xor_eq_zero_iff.mp (eq_zero_of_eq_shr hs hshift)

/-- An odd number has no factor in common with `2^w`, so it can be cancelled from a product modulo `2^w` (rule R73). -/
theorem mul_odd_injective {w : Nat} {c : BitVec w} (hc : Odd c.toNat) : Function.Injective fun x : BitVec w => x * c := by
  intro x y h
  have hmod : x.toNat * c.toNat ≡ y.toNat * c.toNat [MOD 2 ^ w] := by
    rw [Nat.ModEq, ← BitVec.toNat_mul, ← BitVec.toNat_mul]
    exact congrArg BitVec.toNat h
  have hcop : Nat.gcd (2 ^ w) c.toNat = 1 := (Nat.coprime_two_left.mpr hc).pow_left w
  exact BitVec.eq_of_toNat_eq ((hmod.cancel_right_of_coprime hcop).eq_of_lt_of_lt x.isLt y.isLt)

/-- The shape both avalanches share (rules R131, R132): three exclusive ors with a shift, and a product between each two. -/
theorem avalanche_injective {w s₁ s₂ s₃ : Nat} {c₁ c₂ : BitVec w} (h₁ : 0 < s₁) (h₂ : 0 < s₂) (h₃ : 0 < s₃)
    (hc₁ : Odd c₁.toNat) (hc₂ : Odd c₂.toNat) :
    Function.Injective ((fun x => x ^^^ shr x s₃) ∘ (fun x => x * c₂) ∘ (fun x => x ^^^ shr x s₂) ∘
      (fun x => x * c₁) ∘ fun x => x ^^^ shr x s₁) :=
  (xor_shr_injective h₃).comp <| (mul_odd_injective hc₂).comp <| (xor_shr_injective h₂).comp <|
    (mul_odd_injective hc₁).comp <| xor_shr_injective h₁

/-- Settles O33: the shift amounts are positive and the constants odd. -/
theorem avalancheIsInjective : Obligations.AvalancheIsInjective :=
  ⟨avalanche_injective (by decide) (by decide) (by decide) (by decide) (by decide),
    avalanche_injective (by decide) (by decide) (by decide) (by decide) (by decide)⟩

/-! ### Worked examples -/

/-- A zero byte adds nothing to the E32 hash before the rotation (the corner case of rule R125). -/
theorem tail1_32_zero (h : BitVec 32) : tail1_32 h 0#8 = rotl h 11 * Config.params32.prime1 := by
  have hterm : zext 32 0#8 * Config.params32.prime5 = 0#32 := by decide
  rw [tail1_32, hterm, BitVec.add_zero]

/-- A zero byte changes nothing in the E64 hash before the rotation (the corner case of rule R128). -/
theorem tail1_64_zero (h : BitVec 64) : tail1_64 h 0#8 = rotl h 11 * Config.params64.prime1 := by
  have hterm : zext 64 0#8 * Config.params64.prime5 = 0#64 := by decide
  rw [tail1_64, hterm, BitVec.xor_zero]

/-- Settles O34: the examples are checks of closed words; the four corner cases about every `h` are lemmas, given
from the last one up so that the places of the others stay. -/
theorem finalizerStepsMatchTheWorkedExamples : Obligations.FinalizerStepsMatchTheWorkedExamples := by
  unfold Obligations.FinalizerStepsMatchTheWorkedExamples
  constructorm* _ ∧ _
  on_goal 24 => exact tailWalk32_zero
  on_goal 19 => exact tail1_64_zero
  on_goal 12 => exact tail1_32_zero
  on_goal 7 => exact addLength_eq 4294967301#64
  all_goals decide

end Sys2Proof.Machine
end

section
/-! PROOFS. One-shot hashing and NOP (44_oneshot_and_nop.md rules R140 to R143): HASH is `Reset`, `Update` and `Digest` of the
engine in one command, so it is INIT, UPDATE and DIGEST in a row but for `pc`, whatever the bytes are cut into. -/

namespace Sys2Proof.Machine
open Sys2Proof

/-- Settles O15: the zero word is the encoding of NOP, which decodes to it. -/
theorem nopOnlyAdvances : Obligations.NopOnlyAdvances :=
  ⟨decode_encode (i := .nop) (by decide), by decide, fun _ => rfl⟩

/-! ### HASH as a command -/

/-- HASH32 digests E32 fed with the bytes after a `Reset` (rule R140). -/
theorem exec_hash32 (seed : Word64) (data : List Byte) (s : State) : exec (.hash32 seed data) s =
    .next { s.finishE32 ((s.e32.reset Config.params32 (seed.extractLsb' 0 32)).update Config.params32 data) with
      pc := s.pc + BitVec.ofNat 32 (3 + (data.length + 3) / 4) } := by
  rw [exec, execHash32, seedForEngine32_eq]
  rfl

/-- HASH64 digests E64 fed with the bytes after a `Reset` (rule R141). -/
theorem exec_hash64 (seed : Word64) (data : List Byte) (s : State) : exec (.hash64 seed data) s =
    .next { s.finishE64 ((s.e64.reset Config.params64 seed).update Config.params64 data) with
      pc := s.pc + BitVec.ofNat 32 (3 + (data.length + 3) / 4) } := by
  rw [exec, execHash64, seedForEngine64_eq]
  rfl

section reset
variable {w bs cw : Nat} (P : EngineParams w) (e : Engine w bs cw) (seed : BitVec w) {data : List Byte}

/-- An `Update` after a `Reset` absorbs its bytes (rule R106). -/
theorem absorbed_reset_update (hbs : 0 < bs) (hcw : bs < 2 ^ cw) (hd : data.length < 2 ^ 64) :
    Absorbed P ((e.reset P seed).update P data) seed data :=
  (absorbed_reset P e seed).update_first hbs hcw hd

/-- The digest of an `Update` after a `Reset` leaves the engine reset with the seed of the first `Reset` (rule R134). -/
theorem reseed_reset_update : ((e.reset P seed).update P data).reseed P =
    ((e.reset P seed).update P data).reset P seed := by
  rw [reseed_eq, update_seed, reset_seed]

/-- An `Update` after a `Reset` finds the carry empty, so it writes the bytes behind the last whole block to its front and no
other carry byte (rule R103). -/
theorem reset_update_unwritten (hbs : 0 < bs) {j : Nat} (hj : data.length % bs ≤ j) :
    ((e.reset P seed).update P data).carry.toList[j]? = e.carry.toList[j]? := by
  have hunwritten : notWrittenByUpdate (e.reset P seed) data.length j := by
    rw [notWrittenByUpdate, reset_carryLen, BitVec.toNat_zero, Nat.zero_add]
    split_ifs with hfits
    · rw [Nat.mod_eq_of_lt hfits] at hj
      exact .inr hj
    · exact ⟨hj, .inl rfl⟩
  rw [update_unwritten P _ data j (reset_carryLen_lt P e seed hbs) hunwritten, reset_carry]

/-- The count of a fresh engine has room for fewer than `2^64` bytes (rules R90, R112). -/
theorem reset_totalLen_add_lt {n : Nat} (hn : n < 2 ^ 64) : (e.reset P seed).totalLen.toNat + n < 2 ^ 64 := by
  rwa [reset_totalLen, BitVec.toNat_zero, Nat.zero_add]

/-- Pieces after a `Reset` leave the live part that their bytes in one piece leave (rules R106, R143). -/
theorem feed_reset_live (hbs : 0 < bs) (hcw : bs < 2 ^ cw) {pieces : List (List Byte)}
    (hd : pieces.flatten.length < 2 ^ 64) :
    (feed P (e.reset P seed) pieces).live = ((e.reset P seed).update P pieces.flatten).live :=
  (absorbed_feed_reset hbs hcw e hd).live_eq (absorbed_reset_update P e seed hbs hcw hd)

end reset

/-- Settles O23: E32 has absorbed the bytes when its digest is taken, and the carry is the one `Update` left. -/
theorem hash32EmitsTheDigestOfItsBytes : Obligations.Hash32EmitsTheDigestOfItsBytes := by
  intro seed data s hd
  refine ⟨_, ?_, fun j hj => reset_update_unwritten Config.params32 s.e32 (seed.extractLsb' 0 32) (by decide) hj⟩
  have habs := absorbed_reset_update Config.params32 s.e32 (seed.extractLsb' 0 32) (by decide) (by decide) hd
  rw [exec_hash32, State.finishE32, digestValue32_of_absorbed habs, zext_toNat, reseed_reset_update, reset_eq_freshE32]
  rfl

/-- Settles O24: E64 has absorbed the bytes when its digest is taken, and the carry is the one `Update` left. -/
theorem hash64EmitsTheDigestOfItsBytes : Obligations.Hash64EmitsTheDigestOfItsBytes := by
  intro seed data s hd
  refine ⟨_, ?_, fun j hj => reset_update_unwritten Config.params64 s.e64 seed (by decide) hj⟩
  have habs := absorbed_reset_update Config.params64 s.e64 seed (by decide) (by decide) hd
  rw [exec_hash64, State.finishE64, digestValue64_of_absorbed habs, reseed_reset_update, reset_eq_freshE64]
  rfl

/-! ### INIT, UPDATE, ..., UPDATE, DIGEST -/

/-- The words of UPDATE commands that carry the pieces (rule R50). -/
def updateWords (pieces : List (List Byte)) : Nat := (pieces.map fun p => 1 + (p.length + 3) / 4).sum

/-- No pieces, no words. -/
theorem updateWords_nil : updateWords [] = 0 := (rfl)

/-- The words of one UPDATE and of those after it. -/
theorem updateWords_cons (p : List Byte) (ps : List (List Byte)) :
    updateWords (p :: ps) = 1 + (p.length + 3) / 4 + updateWords ps := List.sum_cons

/-- The words of one UPDATE. -/
theorem updateWords_singleton (p : List Byte) : updateWords [p] = 1 + (p.length + 3) / 4 := (rfl)

/-- Moving past two stretches of words one after the other. -/
theorem add_ofNat_add (pc : Word) (m n : Nat) :
    pc + BitVec.ofNat 32 (m + n) = pc + BitVec.ofNat 32 m + BitVec.ofNat 32 n := by
  rw [BitVec.ofNat_add, BitVec.add_assoc]

/-- What an engine has absorbed leaves rule R15 in place (rule R106 (b)). -/
theorem Absorbed.carryLen_lt {w bs cw : Nat} {P : EngineParams w} {e : Engine w bs cw} {seed : BitVec w} {B : List Byte}
    (h : Absorbed P e seed B) (hbs : 0 < bs) : e.carryLen.toNat < bs :=
  h.count ▸ Nat.mod_lt B.length hbs

/-- Where the first command completes, the others are executed on the state it left. -/
theorem execAll_cons {i : Instr} {s u : State} (h : exec i s = .next u) (is : List Instr) :
    execAll (i :: is) s = execAll is u := by
  rw [execAll, h]

/-- UPDATE32 commands in a row, under rule R15 and without overflow, feed E32 with their payloads (rule R107). -/
theorem execAll_updates32 {pieces : List (List Byte)} (is : List Instr) {s : State} (hc : s.e32.carryLen.toNat < 16)
    (ht : s.e32.totalLen.toNat + pieces.flatten.length < 2 ^ 64) :
    execAll (pieces.map .update32 ++ is) s =
      execAll is { s with
        e32 := feed Config.params32 s.e32 pieces
        pc := s.pc + BitVec.ofNat 32 (updateWords pieces) } := by
  induction pieces generalizing s with
  | nil => rw [updateWords_nil, BitVec.add_zero]; rfl
  | cons p ps ih =>
    rw [List.flatten_cons, List.length_append] at ht
    have htotal := (update_spec Config.params32 s.e32 p (by decide) hc (by omega)).total
    have hpc := add_ofNat_add s.pc (1 + (p.length + 3) / 4) (updateWords ps)
    rw [List.map_cons, List.cons_append, execAll_cons (exec_update32 hc (by omega)),
      ih (update_carryLen_lt _ _ p (by decide) hc) (by rw [htotal]; omega), updateWords_cons, hpc]
    rfl

/-- UPDATE64 commands in a row, under rule R15 and without overflow, feed E64 with their payloads (rule R108). -/
theorem execAll_updates64 {pieces : List (List Byte)} (is : List Instr) {s : State} (hc : s.e64.carryLen.toNat < 32)
    (ht : s.e64.totalLen.toNat + pieces.flatten.length < 2 ^ 64) :
    execAll (pieces.map .update64 ++ is) s =
      execAll is { s with
        e64 := feed Config.params64 s.e64 pieces
        pc := s.pc + BitVec.ofNat 32 (updateWords pieces) } := by
  induction pieces generalizing s with
  | nil => rw [updateWords_nil, BitVec.add_zero]; rfl
  | cons p ps ih =>
    rw [List.flatten_cons, List.length_append] at ht
    have htotal := (update_spec Config.params64 s.e64 p (by decide) hc (by omega)).total
    have hpc := add_ofNat_add s.pc (1 + (p.length + 3) / 4) (updateWords ps)
    rw [List.map_cons, List.cons_append, execAll_cons (exec_update64 hc (by omega)),
      ih (update_carryLen_lt _ _ p (by decide) hc) (by rw [htotal]; omega), updateWords_cons, hpc]
    rfl

/-- INIT32, UPDATE32 commands, DIGEST32 complete and digest E32 fed with the payloads after a `Reset` (rules R92, R107,
R135). -/
theorem execAll_init32_updates_digest32 (seed : Word64) {pieces : List (List Byte)} (s : State)
    (ht : pieces.flatten.length < 2 ^ 64) :
    execAll (.init32 seed :: (pieces.map .update32 ++ [.digest32])) s =
      .next { s.finishE32 (feed Config.params32 (s.e32.reset Config.params32 (seed.extractLsb' 0 32)) pieces) with
        pc := s.pc + BitVec.ofNat 32 (3 + updateWords pieces + 1) } := by
  have hc := reset_carryLen_lt Config.params32 s.e32 (seed.extractLsb' 0 32) (by decide)
  have htotal := reset_totalLen_add_lt Config.params32 s.e32 (seed.extractLsb' 0 32) ht
  have habs := absorbed_feed_reset (P := Config.params32) (seed := seed.extractLsb' 0 32) (by decide) (by decide) s.e32 ht
  rw [execAll_cons (init32ConstructsE32 seed s), execAll_updates32 _ hc htotal,
    execAll_cons (exec_digest32 (habs.carryLen_lt (by decide))), execAll, add_ofNat_add, add_ofNat_add]
  rfl

/-- INIT64, UPDATE64 commands, DIGEST64 complete and digest E64 fed with the payloads after a `Reset` (rules R93, R108,
R136). -/
theorem execAll_init64_updates_digest64 (seed : Word64) {pieces : List (List Byte)} (s : State)
    (ht : pieces.flatten.length < 2 ^ 64) :
    execAll (.init64 seed :: (pieces.map .update64 ++ [.digest64])) s =
      .next { s.finishE64 (feed Config.params64 (s.e64.reset Config.params64 seed) pieces) with
        pc := s.pc + BitVec.ofNat 32 (3 + updateWords pieces + 1) } := by
  have hc := reset_carryLen_lt Config.params64 s.e64 seed (by decide)
  have htotal := reset_totalLen_add_lt Config.params64 s.e64 seed ht
  have habs := absorbed_feed_reset (P := Config.params64) (seed := seed) (by decide) (by decide) s.e64 ht
  rw [execAll_cons (init64ConstructsE64 seed s), execAll_updates64 _ hc htotal,
    execAll_cons (exec_digest64 (habs.carryLen_lt (by decide))), execAll, add_ofNat_add, add_ofNat_add]
  rfl

/-- Settles O32: both sides end in `Digest` of the engine fed with the bytes after a `Reset`. Of the bytes in one piece that
is the same engine, of any pieces one with the same live part. -/
theorem oneShotEqualsInitUpdateDigest : Obligations.OneShotEqualsInitUpdateDigest := by
  refine ⟨fun seed data s hd => ?_, fun seed data s hd => ?_, fun seed pieces s hd => ?_, fun seed pieces s hd => ?_⟩
  · have hd' : [data].flatten.length < 2 ^ 64 := by rw [List.flatten_singleton]; omega
    have hx := execAll_init32_updates_digest32 seed s hd'
    rw [updateWords_singleton, ← Nat.add_assoc 3] at hx
    exact ⟨_, _, hx, exec_hash32 seed data s, rfl, rfl⟩
  · have hd' : [data].flatten.length < 2 ^ 64 := by rw [List.flatten_singleton]; omega
    have hx := execAll_init64_updates_digest64 seed s hd'
    rw [updateWords_singleton, ← Nat.add_assoc 3] at hx
    exact ⟨_, _, hx, exec_hash64 seed data s, rfl, rfl⟩
  · have hd' : pieces.flatten.length < 2 ^ 64 := by omega
    have hlive := feed_reset_live Config.params32 s.e32 (seed.extractLsb' 0 32) (by decide) (by decide) hd'
    refine ⟨_, _, execAll_init32_updates_digest32 seed s hd', exec_hash32 seed _ s, ?_⟩
    rw [finishE32_out, finishE32_out, digestValue32_congr hlive]
  · have hd' : pieces.flatten.length < 2 ^ 64 := by omega
    have hlive := feed_reset_live Config.params64 s.e64 seed (by decide) (by decide) hd'
    refine ⟨_, _, execAll_init64_updates_digest64 seed s hd', exec_hash64 seed _ s, ?_⟩
    rw [finishE64_out, finishE64_out, digestValue64_congr hlive]

end Sys2Proof.Machine
end

section
/-! PROOFS. Faults and the end of a run (60_exceptions.md rules R150 to R161): the step in each mode, which words raise which
fault of decoding, what a fault leaves, and that every run ends. -/

namespace Sys2Proof.Machine
open Sys2Proof

/-! ### The step in each mode -/

/-- Settles O7: `step_of_ok`, and the encoding of a well-formed command decodes to it. -/
theorem stepRunsTheDecodedCommand : Obligations.StepRunsTheDecodedCommand :=
  ⟨fun _ _ _ _ h0 hd hi => step_of_ok h0 hd hi,
    fun _ rest _ h0 hwf hd => step_of_ok h0 hd (decode_encode hwf rest)⟩

/-- In `DONE` there is no step (rules R160, R161). -/
theorem step_of_done {s : State} (h : statusMode s.status = Mode.done.code) : step s = .fault .runDone := by
  rw [step, sequencerStep, h, if_neg (by decide), if_pos rfl]

/-- In `FAULTED` there is no step (rule R156). -/
theorem step_of_faulted {s : State} (h : statusMode s.status = Mode.faulted.code) : step s = .fault .runFaulted := by
  rw [step, sequencerStep, h, if_neg (by decide), if_neg (by decide), if_pos rfl]

/-- The end of a run, with the write of `MODE` as a mask (rule R161). -/
theorem endRun_eq (s : State) : s.endRun = { s with status := (s.status &&& 0xFFFFFFFC#32) ||| 1#32 } := by
  rw [State.endRun, setStatusMode_eq]
  rfl

/-- Settles O12: the step ends the run, and `MODE` then reads `DONE`. -/
theorem endOfStreamEndsTheRun : Obligations.EndOfStreamEndsTheRun := by
  intro s h0 he
  rw [← endRun_eq]
  exact ⟨step_of_endOfStream h0 he, step_of_done (statusMode_setStatusMode _ _)⟩

/-- Settles O13: of the three events a step and a launch have no next state in `FAULTED`. -/
theorem onlyHardwareResetLeavesFaulted : Obligations.OnlyHardwareResetLeavesFaulted := by
  intro s h
  have hnd : statusMode s.status ≠ Mode.done.code := by rw [h]; decide
  refine ⟨step_of_faulted h, fun cs => if_neg hnd, ?_⟩
  intro ev t he
  cases ev with
  | step => cases (step_of_faulted h).symm.trans he
  | hardwareReset cs a b => exact ⟨cs, a, b, rfl⟩
  | launch cs => exact absurd (hostEvent_launch_next he).1 hnd

/-! ### The faults of decoding -/

/-- A step where the words at `pc` do not decode, with the cause as its code (rules R151 to R153, R155). -/
theorem step_of_error_code {s : State} {w : Word} {rest : List Word} {f : DecodeFault} {c : BitVec 4}
    (hc : (causeOfDecode f).code = c) (h0 : statusMode s.status = Mode.run.code)
    (hd : s.cs.drop s.pc.toNat = w :: rest) (hf : decode w rest = .error f) : step s = .next (faultState s c w) :=
  hc ▸ step_of_error h0 hd hf

/-- `ILLEGAL_COMMAND` is raised by the headers rule R60 lists, and by no other (rule R151). -/
theorem decode_illegalCommand_iff (w : Word) (rest : List Word) :
    decode w rest = .error .illegalCommand ↔ illegalHeader w := by
  constructor
  · intro h
    by_contra hlegal
    obtain ⟨o, hsel⟩ := legal_row hlegal
    rw [decode_of_row hsel] at h
    split_ifs at h <;> cases h
  · intro h
    simp only [decode, (illegal_iff w).mp h]

/-- Settles O8: `decode_illegalCommand_iff`. -/
theorem illegalCommandIsRaised : Obligations.IllegalCommandIsRaised := fun _ w rest h0 hd =>
  ⟨fun h => step_of_error_code rfl h0 hd ((decode_illegalCommand_iff w rest).mpr h),
    fun h => (decode_illegalCommand_iff w rest).not.mpr h⟩

/-- The length of a command, by the row its header selects (rule R50). -/
theorem lengthByOp_of_selects {o : Opcode} {w : Word} (hsel : (rowOf o).selects w = true) :
    lengthByOp w = 1 + seedWordCount (rowOf o).format + (headerLen w + 3) / 4 := by
  rw [lengthByOp_eq hsel, payloadWordCount_of_selects hsel]

/-- A legal header raises `TRUNCATED_COMMAND` exactly where the stream has fewer words than its command (rule R152). -/
theorem decode_truncatedCommand_iff {w : Word} (hlegal : ¬ illegalHeader w) (rest : List Word) :
    decode w rest = .error .truncatedCommand ↔ rest.length + 1 < lengthByOp w := by
  obtain ⟨o, hsel⟩ := legal_row hlegal
  rw [decode_of_row hsel, lengthByOp_of_selects hsel]
  split_ifs with hshort hpad
  · exact iff_of_true rfl (by omega)
  · exact iff_of_false nofun (by omega)
  · exact iff_of_false nofun (by omega)

/-- NOP, DIGEST and an UPDATE without payload are one word (rule R50). -/
theorem lengthByOp_eq_one {w : Word} (h : headerOp w = 0#4 ∨ headerOp w = 3#4 ∨ (headerOp w = 2#4 ∧ headerLen w = 0)) :
    lengthByOp w = 1 := by
  obtain h | h | ⟨h, hlen⟩ := h
  · simp [lengthByOp, h]
  · simp [lengthByOp, h]
  · simp [lengthByOp, h, hlen]

/-- Settles O9: `pc + cmdlen > CSLEN` is a count of the words behind the header, of which a command of one word has none. -/
theorem truncatedCommandIsRaised : Obligations.TruncatedCommandIsRaised := by
  intro s w rest h0 hd hlegal
  have hlen := length_of_drop hd
  have htrunc := decode_truncatedCommand_iff hlegal rest
  refine ⟨fun h => step_of_error_code rfl h0 hd (htrunc.mpr (by omega)), fun h => htrunc.not.mpr (by omega), fun h => ?_⟩
  rw [ne_eq, htrunc, lengthByOp_eq_one h]
  omega

/-- A payload that fills its words has no padding bits (rule R57). -/
theorem paddingIsZero_of_aligned {len : Nat} (h : len % 4 = 0) (ws : List Word) : paddingIsZero len ws = true := by
  rw [paddingIsZero]
  cases ws.getLast? with
  | none => rfl
  | some v => simp [h]

/-- The padding bits of a command that is not a whole number of words are those of payload word `LEN div 4` (rule R57). -/
theorem paddingBits_eq {o : Opcode} {w v : Word} {rest : List Word} (hsel : (rowOf o).selects w = true)
    (hr : headerLen w % 4 ≠ 0) (hv : rest[seedWordCount (rowOf o).format + headerLen w / 4]? = some v) :
    paddingBits w (w :: rest) = v.toNat / 2 ^ (8 * (headerLen w % 4)) := by
  have hlast : lengthByOp w - 1 = seedWordCount (rowOf o).format + headerLen w / 4 + 1 := by
    rw [lengthByOp_of_selects hsel]
    omega
  rw [paddingBits, hlast, List.getD_cons_succ, List.getD_eq_getElem?_getD, hv, Option.getD_some]

/-- A complete command raises `NONZERO_PAD` exactly where `LEN` is no multiple of four and a padding bit is set (rule
R153). -/
theorem decode_nonzeroPad_iff {w : Word} (hlegal : ¬ illegalHeader w) {rest : List Word}
    (hcomplete : lengthByOp w ≤ rest.length + 1) :
    decode w rest = .error .nonzeroPad ↔ headerLen w % 4 ≠ 0 ∧ paddingBits w (w :: rest) ≠ 0 := by
  obtain ⟨o, hsel⟩ := legal_row hlegal
  rw [lengthByOp_of_selects hsel] at hcomplete
  have hwords : seedWordCount (rowOf o).format + (headerLen w + 3) / 4 ≤ rest.length := by omega
  have hdec : decode w rest = .error .nonzeroPad ↔
      ¬ paddingIsZero (headerLen w) (payloadWordsAt (rowOf o).format w rest) = true := by
    rw [decode_of_row hsel, if_neg hwords.not_gt]
    split_ifs with hpad
    · exact iff_of_false nofun (not_not_intro hpad)
    · exact iff_of_true rfl hpad
  rw [hdec]
  by_cases hr : headerLen w % 4 = 0
  · exact iff_of_false (not_not_intro (paddingIsZero_of_aligned hr _)) (fun h => h.1 hr)
  · have hv : rest[seedWordCount (rowOf o).format + headerLen w / 4]? = some _ :=
      List.getElem?_eq_getElem (by omega)
    rw [paddingIsZero_iff (payloadWordsAt_length hwords) hr ((payloadWordsAt_getElem?_last _ rest hr).trans hv),
      paddingBits_eq hsel hr hv]
    exact (and_iff_right hr).symm

/-- Of the legal headers only UPDATE and HASH have a `LEN` other than zero (rules R58, R60). -/
theorem headerOp_of_headerLen_ne_zero {w : Word} (hlegal : ¬ illegalHeader w) (h : headerLen w ≠ 0) :
    headerOp w = 2#4 ∨ headerOp w = 4#4 := by
  obtain ⟨o, hsel⟩ := legal_row hlegal
  obtain ⟨_, _, _, hp, hsp⟩ := opOf_selects hsel
  have hcount := payloadWordCount_of_selects hsel
  cases hf : (rowOf o).format with
  | p => exact .inl (hp.mpr hf)
  | sp => exact .inr (hsp.mpr hf)
  | n | s => rw [hf, payloadWordCount] at hcount; omega

/-- Settles O10: `decode_nonzeroPad_iff`; a legal header with a `LEN` other than zero is UPDATE or HASH. -/
theorem nonzeroPadIsRaised : Obligations.NonzeroPadIsRaised := by
  intro s w rest h0 hd hlegal hcomplete
  have hlen := length_of_drop hd
  have hpad := decode_nonzeroPad_iff hlegal (rest := rest) (by omega)
  refine ⟨fun ⟨_, h⟩ => step_of_error_code rfl h0 hd (hpad.mpr h), fun hnot hdec => hnot ?_⟩
  obtain ⟨hr, hbits⟩ := hpad.mp hdec
  exact ⟨headerOp_of_headerLen_ne_zero hlegal (fun hz => hr (by rw [hz])), hr, hbits⟩

/-! ### What a fault leaves -/

/-- A step that ends in `FAULTED` did fault entry on the state before it and nothing else (rules R155, R159). -/
theorem step_into_faulted {s t : State} (h : step s = .next t) (hf : statusMode t.status = Mode.faulted.code) :
    ∃ c w, s.cs[s.pc.toNat]? = some w ∧ t = faultState s c w := by
  obtain ⟨h0, ⟨_, rfl⟩ | ⟨w, rest, f, hd, _, rfl⟩ | ⟨_, _, i, _, _, hx⟩⟩ := step_next h
  · rw [endRun_status, statusMode_setStatusMode] at hf
    exact absurd hf (by decide)
  · exact ⟨_, w, getElem?_of_drop hd, rfl⟩
  · obtain ⟨_, w, hw, rfl⟩ | ⟨_, _, a, b, l, rfl, _⟩ := exec_next hx
    · exact ⟨_, w, hw, rfl⟩
    · rw [moved_status, h0] at hf
      exact absurd hf (by decide)

/-- Settles O14: fault entry writes `STATUS`, `FPC` and `FWORD` only. -/
theorem faultsArePrecise : Obligations.FaultsArePrecise := by
  intro s t h hf
  obtain ⟨c, w, hw, rfl⟩ := step_into_faulted h hf
  exact ⟨faultState_e32 s c w, faultState_e64 s c w, faultState_out s c w, faultState_pc s c w, faultState_cs s c w,
    faultState_fpc s c w, hw⟩

/-! ### Every run ends -/

/-- Under rule R15 of both engines every command finds its own engine in range. -/
theorem inRange_of_carryLen_lt {s : State} (h32 : s.e32.carryLen.toNat < 16) (h64 : s.e64.carryLen.toNat < 32)
    (i : Instr) : inRange i s := by
  cases i with
  | update32 _ | digest32 => exact h32
  | update64 _ | digest64 => exact h64
  | nop | init32 _ | init64 _ | hash32 _ _ | hash64 _ _ => trivial

/-- Where the stream has a word at `pc`, a command has a next state: it completes or raises `LENGTH_OVERFLOW` (rule R150). -/
theorem exec_has_next {s : State} (h : s.Inv) {w : Word} (hw : s.cs[s.pc.toNat]? = some w) (i : Instr) :
    ∃ t, exec i s = .next t := by
  by_cases ho : overflows i s
  · exact ⟨_, (exec_of_overflows ho).trans (raise_eq hw _)⟩
  · exact ⟨_, exec_of_inRange ho (inRange_of_carryLen_lt h.carry32 h.carry64 i)⟩

/-- An invariant state in `RUN` has a step (rule R160). -/
theorem step_has_next {s : State} (h : s.Inv) (h0 : statusMode s.status = Mode.run.code) : ∃ t, step s = .next t := by
  obtain he | hlt := h.pcInStream.eq_or_lt
  · exact ⟨_, step_of_endOfStream h0 he⟩
  · have hd := List.drop_eq_getElem_cons hlt
    cases hi : decode s.cs[s.pc.toNat] (s.cs.drop (s.pc.toNat + 1)) with
    | error f => exact ⟨_, step_of_error h0 hd hi⟩
    | ok i =>
      obtain ⟨t, ht⟩ := exec_has_next h (getElem?_of_drop hd) i
      exact ⟨t, (step_of_ok h0 hd hi).trans ht⟩

/-- A step that stays in `RUN` leaves fewer words between `pc` and the end of the stream (rules R19, R50). -/
theorem step_words_left_lt {s t : State} (h : s.Inv) (hs : step s = .next t) (h0 : statusMode t.status = 0#2) :
    t.cs.length - t.pc.toNat < s.cs.length - s.pc.toNat := by
  obtain ⟨w, rest, i, _, hi, hpc, hle⟩ := (pcMovesOnByCmdlenWithoutWrap s t h hs).1 h0
  obtain ⟨hcs, _⟩ := wholeMachineFrame.1 s t hs
  have hpos := (decode_cmdlen hi).1
  rw [hcs]
  omega

/-- Settles O49, by induction on the words left: a step leaves `RUN` or leaves fewer. -/
theorem everyRunEnds : Obligations.EveryRunEnds := by
  intro s h h0
  induction hn : s.cs.length - s.pc.toNat using Nat.strong_induction_on generalizing s with
  | h n ih =>
    obtain ⟨u, hu⟩ := step_has_next h h0
    by_cases hmode : statusMode u.status = 0#2
    · have hlt : u.cs.length - u.pc.toNat < n := hn ▸ step_words_left_lt h hu hmode
      obtain ⟨k, t, hk, ht, hstop⟩ := ih _ hlt u (stepKeepsTheInvariant s u h hu) hmode rfl
      exact ⟨k + 1, t, by omega, (runSteps_succ hu k).trans ht, hstop⟩
    · exact ⟨1, u, by omega, runSteps_succ hu 0, hmode⟩

end Sys2Proof.Machine
end

section
/-! PROOFS. Hardware reset and launch (70_reset_and_hazards.md rules R170, R171): the state each leaves, field by field. -/

namespace Sys2Proof.Machine
open Sys2Proof

/-! ### The host's actions -/

section host
variable (s : State) {cs : List Word}

/-- A hardware reset with a stream of legal length is carried out, whatever the mode (rules R8, R170). -/
theorem hostEvent_hardwareReset (a : Vector Byte 16) (b : Vector Byte 32) (hcs : cs.length ≤ Config.cslenMax) :
    hostEvent (.hardwareReset cs a b) s = .next (s.hardwareReset cs a b) := by
  rw [hostEvent, if_pos hcs]

/-- A launch from `DONE` with a stream of legal length is carried out (rules R8, R171). -/
theorem hostEvent_launch_of_done (hd : statusMode s.status = Mode.done.code) (hcs : cs.length ≤ Config.cslenMax) :
    hostEvent (.launch cs) s = .next (s.launch cs) := by
  rw [hostEvent, if_pos hd, if_pos hcs]

/-- A launch in any other mode is refused (rule R171; log entry 12). -/
theorem hostEvent_launch_of_not_done (hd : statusMode s.status ≠ Mode.done.code) :
    hostEvent (.launch cs) s = .refused .launchNotDone := by
  rw [hostEvent, if_neg hd]

/-- Both engines are fresh under seed 0 after hardware reset, with the constants in numbers (rules R28, R170). -/
theorem hardwareReset_eq (cs : List Word) (a : Vector Byte 16) (b : Vector Byte 32) : s.hardwareReset cs a b =
    { e32 := freshE32 0#32 a, e64 := freshE64 0#64 b, pc := 0#32, cs := cs, out := [], status := 0#32, fpc := 0#32,
      fword := 0#32 } := by
  rw [State.hardwareReset, reset_eq_freshE32, reset_eq_freshE64]

/-- The launch, with the write of `MODE` as a mask: the code of `RUN` sets no bit (rule R171). -/
theorem launch_eq (cs : List Word) :
    s.launch cs = { s with cs := cs, pc := 0#32, status := s.status &&& 0xFFFFFFFC#32 } := by
  have hrun : Mode.run.code.setWidth 32 = 0#32 := by decide
  rw [State.launch, setStatusMode_eq, hrun, BitVec.or_zero]

end host

/-! ### DIGEST32 right after hardware reset -/

/-- A fresh engine is a fixed point of `Reset` with its own seed (rule R90). -/
theorem reset_freshE32 (seed : BitVec 32) (a : Vector Byte 16) :
    (freshE32 seed a).reset Config.params32 seed = freshE32 seed a := reset_eq_freshE32 _ seed

/-- The digest of a fresh E32 under seed 0 is that of the empty input (rule R95). -/
theorem digestValue32_freshE32_zero (a : Vector Byte 16) : digestValue32 (freshE32 0#32 a) = 0x02CC5D05#32 := by
  have hempty : avalanche32 (shortStart Config.params32 0#32) = 0x02CC5D05#32 := by decide
  rw [← reset_freshE32, digestValue32_reset, hempty]

/-- DIGEST32 on a fresh E32 under seed 0 emits that digest and leaves the engine as it was (rules R95, R134, R135). -/
theorem exec_digest32_of_freshE32_zero {s : State} {a : Vector Byte 16} (h : s.e32 = freshE32 0#32 a) :
    exec .digest32 s = .next { s with out := s.out ++ [⟨0#1, 0x02CC5D05#64⟩], pc := s.pc + 1#32 } := by
  have hc : s.e32.carryLen.toNat < 16 := by rw [h, ← reset_freshE32]; exact reset_carryLen_lt _ _ _ (by decide)
  have hseed : s.e32.seed = 0#32 := by rw [h, freshE32]
  have hsame : s.e32.reset Config.params32 0#32 = s.e32 := by rw [h, reset_freshE32]
  have hvalue : zext 64 (digestValue32 s.e32) = 0x02CC5D05#64 := by rw [h, digestValue32_freshE32_zero]; decide
  rw [exec_digest32 hc, hseed, hsame, hvalue]

/-- Settles O45: the reset engines are fresh under seed 0, which is what DIGEST32 then finds. -/
theorem hardwareResetWritesEverything : Obligations.HardwareResetWritesEverything := by
  intro s cs a b hcs
  refine ⟨_, hostEvent_hardwareReset s a b hcs, hardwareReset_eq s cs a b, ?_⟩
  rw [hardwareReset_eq]
  exact exec_digest32_of_freshE32_zero rfl

/-! ### Launch -/

/-- Settles O46: a launch is carried out in `DONE` and refused in every other mode; hardware reset zeroes `STATUS`. -/
theorem launchKeepsTheEngines : Obligations.LaunchKeepsTheEngines := by
  intro s cs hcs
  refine ⟨fun hd => ?_, hostEvent_launch_of_not_done s, fun a b => ?_⟩
  · rw [← launch_eq]
    exact hostEvent_launch_of_done s hd hcs
  · have hmode : statusMode 0#32 = 0#2 := by decide
    exact ⟨_, hostEvent_hardwareReset s a b hcs, rfl, rfl, hmode⟩

end Sys2Proof.Machine
end

section
/-! PROOFS. The source's own vectors (95_test_vectors.md section 1): all but S3 are shorter than a block, so their digests
are start value, count, tail walk and avalanche alone, with no round of the lanes (rules R122, R133). -/

namespace Sys2Proof.Machine
open Sys2Proof

/-- Bytes that fill no block of E32 are all tail, and the start value is that of `ShortStart` (rules R122, R133). -/
theorem xxh32_of_length_lt {seed : BitVec 32} {B : List Byte} (h : B.length < 16) : xxh32 seed B =
    avalanche32 (tailWalk32 B B.length (shortStart Config.params32 seed + BitVec.ofNat 32 B.length)) := by
  rw [xxh32, if_neg (Nat.not_le.mpr h), Nat.div_eq_of_lt h, Nat.mod_eq_of_lt h, Nat.zero_mul, List.drop_zero,
    shortStart]

/-- Bytes that fill no block of E64 are all tail, and the start value is that of `ShortStart` (rules R122, R133). -/
theorem xxh64_of_length_lt {seed : BitVec 64} {B : List Byte} (h : B.length < 32) : xxh64 seed B =
    avalanche64 (tailWalk64 B B.length (shortStart Config.params64 seed + BitVec.ofNat 64 B.length)) := by
  rw [xxh64, if_neg (Nat.not_le.mpr h), Nat.div_eq_of_lt h, Nat.mod_eq_of_lt h, Nat.zero_mul, List.drop_zero,
    shortStart]

/-- Settles O35: each of the seven inputs is shorter than a block of its engine, and the tail walk and the avalanche of
so few bytes are computed. -/
theorem sourceVectorsAreReproduced : Obligations.SourceVectorsAreReproduced :=
  ⟨(xxh32_of_length_lt (by decide)).trans (by decide), -- S1
    (xxh32_of_length_lt (by decide)).trans (by decide), -- S2
    (xxh32_of_length_lt (by decide)).trans (by decide), -- S4
    (xxh64_of_length_lt (by decide)).trans (by decide), -- S5
    (xxh64_of_length_lt (by decide)).trans (by decide), -- S6
    (xxh32_of_length_lt (by decide)).trans (by decide), -- S7
    (xxh64_of_length_lt (by decide)).trans (by decide)⟩ -- S8

end Sys2Proof.Machine
end
